-- ==== Sys2Proof/Word.lean ====
section
/-! DEFINITION. The byte, the operand records and the named registers of the RTC register codec
(spec/00_scope.md R7, R8; spec/10_state.md R25, R28). -/

namespace Sys2Proof

/-- A byte: bit 7 is the top bit, bit n has weight 2^n (R8, R53). -/
abbrev Byte := BitVec 8

/-- A register address, 8 bits wide (R7, decision D20). -/
abbrev RegAddr := BitVec 8

/-- The number of registers of the chip, addresses 0x00 to 0x12 (R24, R50). -/
abbrev registerCount : Nat := 0x13

/-- A date-time value (R28). The fields are independent: no cross-field validation. -/
structure DateTimeValue where
  year : BitVec 16
  month : Byte
  dom : Byte
  hour : Byte
  minute : Byte
  second : Byte
  dow : Byte
  deriving DecidableEq, Repr, Inhabited

/-- The direction of CHANGE_BIT (R174). -/
inductive BitDirection where
  | set
  | clear
  deriving DecidableEq, Repr, Inhabited

/-- The nineteen registers by the names of the register map (R25). -/
inductive Reg where
  | seconds | minutes | hours | dayOfWeek | dayOfMonth | monthCentury | year
  | alarm1Seconds | alarm1Minutes | alarm1Hours | alarm1Day
  | alarm2Minutes | alarm2Hours | alarm2Day
  | control | status | agingOffset | temperatureHigh | temperatureLow
  deriving DecidableEq, Repr

/-- A named field of a register: bits `hi` down to `lo` (R25, R30, R31). -/
structure BitField where
  name : String
  hi : Nat
  lo : Nat
  deriving DecidableEq, Repr

end Sys2Proof
end

