-- ==== Sys2Proof/Config.lean ====
section
/-! DEFINITION. What an implementation fixes and what the spec leaves free: the parameters of
spec/00_scope.md R7 and the free values of decisions D5, D12, D13 and D21. -/

namespace Sys2Proof

/-- What the outside world decides about ONE bus transaction: the chip environment's changes just
before it (R26, D12), whether it succeeds (R27, D13), and the bytes a failed write leaves in the
addressed registers, in ascending address order (R176; a byte not listed keeps its old value, which
is one of the values the rule admits). -/
structure Draw where
  env : List (Nat × Byte)
  ok : Bool
  left : List Byte
  deriving DecidableEq, Repr, Inhabited

/-- The free draw of the n-th transaction: no proof can see what it is, so a claim about it holds for
every chip environment and every bus (CHIP_ENV unconstrained, BUS_OK free: D12, D13). Log entry 2. -/
opaque Config.freeDraw : Nat → Draw

/-- The unspecified content of a chip register at construction: a free value a byte (R33, R211, D21).
Log entry 5. -/
opaque Config.powerOnByte : Nat → Byte

/-- ALARM_MODE_SEVENTH: OPEN (R85, D5). Log entry 16. -/
opaque Config.alarmModeSeventh : BitVec 5

/-- The chip's address on the bus, 0x68 (R7, R24). The spec gives the value and no width: the 7 bits are the
family's two-wire address width (PRESUMED, log entry 30). -/
def Config.chipBusAddress : BitVec 7 := 0x68

/-- YEAR_BASE when the constructor is given none (R7, R20). -/
def Config.defaultYearBase : Fin 65271 := 2000

/-- EOSC_MASK, oscillator-enable, active low, in the control register (R7, R30, D7; PRESUMED, log 13). -/
def Config.eoscMask : Byte := 0x80

/-- OSF_MASK, oscillator-stopped, in the status register (R7, R31, D7; PRESUMED, log 13). -/
def Config.osfMask : Byte := 0x80

/-- A1F_MASK, alarm 1 fired, in the status register (R7, R31, D7; PRESUMED, log 13). -/
def Config.a1fMask : Byte := 0x01

/-- A2F_MASK, alarm 2 fired, in the status register (R7, R31, D7; PRESUMED, log 13). -/
def Config.a2fMask : Byte := 0x02

/-- DYDT_MASK, the day-of-week selector of an alarm day/date byte (R7, R129, D6; log 13). -/
def Config.dydtMask : Byte := 0x40

/-- The pin-mode field of the control register: bits 4:0 (R75). -/
def Config.pinFieldMask : Byte := 0x1F

/-- INT_PIN_MODES, the admitted pin-mode values, with the spec's default (R86, D8; PRESUMED, log 15). -/
def Config.intPinModes : List (BitVec 5) := [0x07, 0x00, 0x08, 0x10, 0x18]

end Sys2Proof
end

