-- ==== Sys2Proof/Machine/Flags.lean ====
section
/-! DEFINITION. Every bit computation: the three bit operations of the bus (spec/43_bus.md R173 to R175),
the named bits of the control and status registers (spec/10_state.md R30 to R32), and the ignore and
selector bits of an alarm byte (spec/41_encode.md R128, R129). -/

namespace Sys2Proof.Machine

/-- TEST_BIT's answer: `(R[a] & m) != 0` (R173). -/
def bitIsSet (b m : Byte) : Bool := b &&& m != 0

/-- CHANGE_BIT's new byte: `b | m` or `b & ~m` (R174). -/
def changedBit (b m : Byte) : BitDirection → Byte
  | .set => b ||| m
  | .clear => b &&& ~~~m

/-- WRITE_MASKED's new byte: `(b & ~m) | (v & m)` (R175). -/
def maskedByte (b m v : Byte) : Byte := (b &&& ~~~m) ||| (v &&& m)

/-- A mask with exactly one bit set (R173, R174, decision D23). -/
def isOneBit (m : Byte) : Bool := (List.range 8).countP (fun i => m.getLsbD i) == 1

/-- `b | (i << 7)`: a byte with its ignore bit (R128). -/
def withIgnoreBit (b : Byte) (i : Bool) : Byte := if i then b ||| 0x80 else b

/-- The oscillator-enable bit of a control byte, active low (R30, R32). -/
def eosc (control : Byte) : Bool := bitIsSet control Config.eoscMask

/-- The oscillator-stopped flag of a status byte (R31, R32). -/
def osf (status : Byte) : Bool := bitIsSet status Config.osfMask

/-- The alarm-1-fired flag of a status byte (R31, R32). -/
def a1f (status : Byte) : Bool := bitIsSet status Config.a1fMask

/-- The alarm-2-fired flag of a status byte (R31, R32). -/
def a2f (status : Byte) : Bool := bitIsSet status Config.a2fMask

/-- The pin-mode field, bits 4:0 of a control byte (R30, R75). -/
def pinField (control : Byte) : BitVec 5 := control.extractLsb' 0 5

/-- The century flag, bit 7 of the month byte (R102). -/
def centuryFlag (month : Byte) : Bool := month.getLsbD 7

end Sys2Proof.Machine
end

