-- ==== Sys2Proof/Machine/Operands.lean ====
section
/-! DEFINITION. Operand forms: the register map (spec/10_state.md R25), the BCD byte (spec/30_encoding.md
R70), the date-time invariant (spec/41_encode.md R121), and the alarm-mode and pin-mode tags
(spec/30_encoding.md R84 to R86, R91). -/

namespace Sys2Proof.Machine

/-- The address of a named register (R25). -/
def regAddr : Reg → RegAddr
  | .seconds => 0x00
  | .minutes => 0x01
  | .hours => 0x02
  | .dayOfWeek => 0x03
  | .dayOfMonth => 0x04
  | .monthCentury => 0x05
  | .year => 0x06
  | .alarm1Seconds => 0x07
  | .alarm1Minutes => 0x08
  | .alarm1Hours => 0x09
  | .alarm1Day => 0x0A
  | .alarm2Minutes => 0x0B
  | .alarm2Hours => 0x0C
  | .alarm2Day => 0x0D
  | .control => 0x0E
  | .status => 0x0F
  | .agingOffset => 0x10
  | .temperatureHigh => 0x11
  | .temperatureLow => 0x12

/-- The fields of an alarm's hours and day bytes and of the minute-like bytes share their upper digits. -/
def bcdFields (tensHi : Nat) : List BitField := [⟨"tens", tensHi, 4⟩, ⟨"units", 3, 0⟩]

/-- Every field of every register, bit 7 first (R25, R30, R31; names marked GK there are the family's).
R25 calls hours bit 7 a control bit and gives it no meaning: "reserved" is the family's name for it, and nothing
rests on it (PRESUMED, log entry 31). -/
def regFields : Reg → List BitField
  | .seconds => ⟨"reserved", 7, 7⟩ :: bcdFields 6
  | .minutes => ⟨"reserved", 7, 7⟩ :: bcdFields 6
  | .hours => [⟨"reserved", 7, 7⟩, ⟨"12/24", 6, 6⟩] ++ bcdFields 5
  | .dayOfWeek => [⟨"masked", 7, 3⟩, ⟨"day", 2, 0⟩]
  | .dayOfMonth => ⟨"masked", 7, 6⟩ :: bcdFields 5
  | .monthCentury => [⟨"century", 7, 7⟩, ⟨"masked", 6, 5⟩] ++ bcdFields 4
  | .year => bcdFields 7
  | .alarm1Seconds => ⟨"ignore", 7, 7⟩ :: bcdFields 6
  | .alarm1Minutes => ⟨"ignore", 7, 7⟩ :: bcdFields 6
  | .alarm1Hours => [⟨"ignore", 7, 7⟩, ⟨"zero", 6, 6⟩] ++ bcdFields 5
  | .alarm1Day => [⟨"ignore", 7, 7⟩, ⟨"DY/DT", 6, 6⟩] ++ bcdFields 5
  | .alarm2Minutes => ⟨"ignore", 7, 7⟩ :: bcdFields 6
  | .alarm2Hours => [⟨"ignore", 7, 7⟩, ⟨"zero", 6, 6⟩] ++ bcdFields 5
  | .alarm2Day => [⟨"ignore", 7, 7⟩, ⟨"DY/DT", 6, 6⟩] ++ bcdFields 5
  | .control => [⟨"EOSC", 7, 7⟩, ⟨"BBSQW", 6, 6⟩, ⟨"CONV", 5, 5⟩, ⟨"RS2", 4, 4⟩, ⟨"RS1", 3, 3⟩,
      ⟨"INTCN", 2, 2⟩, ⟨"A2IE", 1, 1⟩, ⟨"A1IE", 0, 0⟩]
  | .status => [⟨"OSF", 7, 7⟩, ⟨"reserved", 6, 4⟩, ⟨"EN32kHz", 3, 3⟩, ⟨"BSY", 2, 2⟩,
      ⟨"A2F", 1, 1⟩, ⟨"A1F", 0, 0⟩]
  | .agingOffset => [⟨"uninterpreted", 7, 0⟩]
  | .temperatureHigh => [⟨"degrees", 7, 0⟩]
  | .temperatureLow => [⟨"quarters", 7, 6⟩, ⟨"unread", 5, 0⟩]

/-- The value of a field of a register's byte, `b[hi:lo]` (R8). -/
def fieldOf (b : Byte) (f : BitField) : Nat := b.toNat / 2 ^ f.lo % 2 ^ (f.hi - f.lo + 1)

/-- `bcd2bin(b) = 10 * b[7:4] + b[3:0]`, unchecked, 0..165 (R100). -/
def bcd2bin (b : Byte) : Nat := 10 * (b.toNat / 16) + b.toNat % 16

/-- `bin2bcd(v) = ((v div 10) << 4) | (v mod 10)`, for v in 0..99 (R120). -/
def bin2bcd (v : Nat) : Byte := (BitVec.ofNat 8 (v / 10) <<< 4) ||| BitVec.ofNat 8 (v % 10)

/-- Byte `i` of a block operand (R52). The commands look only at bytes their admission or their
transaction's length gives the block. -/
def blockByte (blk : List Byte) (i : Nat) : Byte := blk.getD i 0

/-- The DateTimeValue invariant (R28, R121): each field in its calendar range; any year. -/
def dateTimeValid (dt : DateTimeValue) : Bool :=
  (1 ≤ dt.month.toNat && dt.month.toNat ≤ 12) && (1 ≤ dt.dom.toNat && dt.dom.toNat ≤ 31)
    && dt.hour.toNat ≤ 23 && dt.minute.toNat ≤ 59 && dt.second.toNat ≤ 59 && dt.dow.toNat ≤ 6

/-- Mode bit 0: seconds ignored (R84). -/
def secondsIgnored (m : BitVec 5) : Bool := m.getLsbD 0

/-- Mode bit 1: minutes ignored (R84). -/
def minutesIgnored (m : BitVec 5) : Bool := m.getLsbD 1

/-- Mode bit 2: hours ignored (R84). -/
def hoursIgnored (m : BitVec 5) : Bool := m.getLsbD 2

/-- Mode bit 3: day ignored (R84; 90_conflicts C2). -/
def dayIgnored (m : BitVec 5) : Bool := m.getLsbD 3

/-- Mode bit 4: day-of-week selected (R84). -/
def dayOfWeekSelected (m : BitVec 5) : Bool := m.getLsbD 4

/-- ARG "is zero-extended to 8 bits where a byte is needed" (R91). -/
def argByte (arg : BitVec 5) : Byte := arg.setWidth 8

/-- The named alarm modes (R85). -/
inductive AlarmMode where
  | oncePerSecond
  | secondsMatch
  | minutesSeconds
  | hoursMinutesSeconds
  | dayOfMonthMatch
  | dayOfWeekMatch
  /-- The open seventh mode. -/
  | seventh
  deriving DecidableEq, Repr

/-- The tag of a named alarm mode (R85). -/
def alarmModeTag : AlarmMode → BitVec 5
  | .oncePerSecond => 0x0F
  | .secondsMatch => 0x0E
  | .minutesSeconds => 0x0C
  | .hoursMinutesSeconds => 0x08
  | .dayOfMonthMatch => 0x00
  | .dayOfWeekMatch => 0x10
  | .seventh => Config.alarmModeSeventh

/-- A field an alarm compares (R85). -/
inductive AlarmField where
  | second
  | minute
  | hour
  | dom
  | dow
  deriving DecidableEq, Repr

/-- The day field a tag selects, unless it ignores the day (R84). -/
def dayFieldsMatched (m : BitVec 5) : List AlarmField :=
  if dayIgnored m then [] else if dayOfWeekSelected m then [.dow] else [.dom]

/-- The fields that must match for alarm 2: those whose ignore bit is clear (R84, R85). -/
def alarm2FieldsMatched (m : BitVec 5) : List AlarmField :=
  dayFieldsMatched m ++ (if hoursIgnored m then [] else [.hour])
    ++ (if minutesIgnored m then [] else [.minute])

/-- The fields that must match for alarm 1, which has seconds too (R84, R85). -/
def alarm1FieldsMatched (m : BitVec 5) : List AlarmField :=
  alarm2FieldsMatched m ++ (if secondsIgnored m then [] else [.second])

/-- The named pin modes (R86). -/
inductive PinMode where
  | interruptOnAlarm
  | squareWave1Hz
  | squareWave1024Hz
  | squareWave4096Hz
  | squareWave8192Hz
  deriving DecidableEq, Repr

/-- The field value of a named pin mode (R86; PRESUMED, log entry 15). -/
def pinModeValue : PinMode → BitVec 5
  | .interruptOnAlarm => 0x07
  | .squareWave1Hz => 0x00
  | .squareWave1024Hz => 0x08
  | .squareWave4096Hz => 0x10
  | .squareWave8192Hz => 0x18

end Sys2Proof.Machine
end

