-- ==== Sys2Proof/Syntax.lean ====
section
/-! DEFINITION. The instruction set (spec/30_encoding.md R92, R95; spec/opcode_table.json): sixteen
commands and the five bus transactions. Data operands are not part of an instruction: they come on
the operand ports (R91, R95), which are State. -/

namespace Sys2Proof

/-- One constructor per row of spec/opcode_table.json. `m` is the alarm-mode tag (R84) and `p` the
pin-mode value (R86), the ARG field of the command word. -/
inductive Instr where
  | decDt
  | decTemp
  | encDt
  | encAl1 (m : BitVec 5)
  | encAl2 (m : BitVec 5)
  | getDt
  | setDt
  | setAl1 (m : BitVec 5)
  | setAl2 (m : BitVec 5)
  | getTemp
  | isRunning
  | enableOsc
  | isAl1Set
  | isAl2Set
  | setIntPin (p : BitVec 5)
  | dumpRegs
  | readBlock
  | writeBlock
  | testBit
  | changeBit
  | writeMasked
  deriving DecidableEq, Repr

/-- Is the instruction a command (R92), not a bus transaction (R95)? -/
def Instr.isCommand : Instr → Bool
  | .decDt => true
  | .decTemp => true
  | .encDt => true
  | .encAl1 _ => true
  | .encAl2 _ => true
  | .getDt => true
  | .setDt => true
  | .setAl1 _ => true
  | .setAl2 _ => true
  | .getTemp => true
  | .isRunning => true
  | .enableOsc => true
  | .isAl1Set => true
  | .isAl2Set => true
  | .setIntPin _ => true
  | .dumpRegs => true
  | .readBlock => false
  | .writeBlock => false
  | .testBit => false
  | .changeBit => false
  | .writeMasked => false

/-- An encoded instruction as its port carries it: a 16-bit command word on the command port (R90), or
a 3-bit kind code on the bus-master port (R95). -/
inductive PortWord where
  | command (w : BitVec 16)
  | bus (kind : BitVec 3)
  deriving DecidableEq, Repr

/-- Why a word is refused (R93 items 1 to 4; R95 "Codes 5–7 are never issued"). -/
inductive WordReject where
  /-- OP is not in the table of R92. -/
  | unassignedOp
  /-- RSV is not 0. -/
  | reservedBits
  /-- ARG is not 0 for a command whose ARG column is 0. -/
  | argNotZero
  /-- ARG of SET_INT_PIN is not a value of INT_PIN_MODES. -/
  | pinModeNotAdmitted
  /-- The bus kind code is 5, 6 or 7. -/
  | unassignedKind
  deriving DecidableEq, Repr

end Sys2Proof
end

