-- ==== Sys2Proof/WellFormed.lean ====
section
/-! DEFINITION. Which instructions the encoding admits (spec/30_encoding.md R93, last paragraph: every
5-bit alarm-mode tag; item 4: only the pin modes of INT_PIN_MODES). -/

namespace Sys2Proof

/-- The one check the syntax leaves: a SET_INT_PIN value is in INT_PIN_MODES (R86, R93.4). -/
def Instr.wellFormed : Instr → Bool
  | .decDt => true
  | .decTemp => true
  | .encDt => true
  | .encAl1 _ => true
  | .encAl2 _ => true
  | .getDt => true
  | .setDt => true
  | .setAl1 _ => true
  | .setAl2 _ => true
  | .getTemp => true
  | .isRunning => true
  | .enableOsc => true
  | .isAl1Set => true
  | .isAl2Set => true
  | .setIntPin p => Config.intPinModes.contains p
  | .dumpRegs => true
  | .readBlock => true
  | .writeBlock => true
  | .testBit => true
  | .changeBit => true
  | .writeMasked => true

end Sys2Proof
end

