-- ==== Sys2Proof/Decode.lean ====
section
/-! DEFINITION. The decoder and the encoder of the command word (spec/30_encoding.md R90 to R93) and of
the bus kind code (R95), and the numbered view of the opcode table. -/

namespace Sys2Proof

/-- OP, bits 7:0 of a command word (R90). -/
def opField (w : BitVec 16) : BitVec 8 := w.extractLsb' 0 8

/-- ARG, bits 12:8 of a command word (R90). -/
def argField (w : BitVec 16) : BitVec 5 := w.extractLsb' 8 5

/-- RSV, bits 15:13 of a command word (R90). -/
def rsvField (w : BitVec 16) : BitVec 3 := w.extractLsb' 13 3

/-- A command whose ARG column is 0 (R92, R93.3). -/
def plainCommand (arg : BitVec 5) (i : Instr) : Except WordReject Instr :=
  if arg = 0 then .ok i else .error .argNotZero

/-- SET_INT_PIN: its ARG is a value of INT_PIN_MODES (R93.4). -/
def pinCommand (arg : BitVec 5) : Except WordReject Instr :=
  if Config.intPinModes.contains arg then .ok (.setIntPin arg) else .error .pinModeNotAdmitted

/-- A row of the opcode map: OP and what the command makes of its ARG. -/
abbrev OpRow := BitVec 8 × (BitVec 5 → Except WordReject Instr)

/-- The opcode map of R92. -/
def opcodeMap : List OpRow :=
  [ (0x01, fun arg => plainCommand arg .decDt)
  , (0x02, fun arg => plainCommand arg .decTemp)
  , (0x03, fun arg => plainCommand arg .encDt)
  , (0x04, fun arg => .ok (.encAl1 arg))
  , (0x05, fun arg => .ok (.encAl2 arg))
  , (0x10, fun arg => plainCommand arg .getDt)
  , (0x11, fun arg => plainCommand arg .setDt)
  , (0x12, fun arg => .ok (.setAl1 arg))
  , (0x13, fun arg => .ok (.setAl2 arg))
  , (0x14, fun arg => plainCommand arg .getTemp)
  , (0x20, fun arg => plainCommand arg .isRunning)
  , (0x21, fun arg => plainCommand arg .enableOsc)
  , (0x22, fun arg => plainCommand arg .isAl1Set)
  , (0x23, fun arg => plainCommand arg .isAl2Set)
  , (0x24, fun arg => pinCommand arg)
  , (0x30, fun arg => plainCommand arg .dumpRegs) ]

/-- OP and ARG by the opcode map; an OP it does not list is refused (R93.1). -/
def decodeOp (op : BitVec 8) (arg : BitVec 5) : Except WordReject Instr :=
  match opcodeMap.find? (fun row => row.1 == op) with
  | some row => row.2 arg
  | none => .error .unassignedOp

/-- A command word: RSV must be 0 (R93.2), the rest by the opcode map. -/
def decodeCommand (w : BitVec 16) : Except WordReject Instr :=
  if rsvField w = 0 then decodeOp (opField w) (argField w) else .error .reservedBits

/-- A bus kind code (R95). -/
def decodeKind (k : BitVec 3) : Except WordReject Instr :=
  if k = 0 then .ok .readBlock
  else if k = 1 then .ok .writeBlock
  else if k = 2 then .ok .testBit
  else if k = 3 then .ok .changeBit
  else if k = 4 then .ok .writeMasked
  else .error .unassignedKind

/-- The decoder: total on every word either port can carry. -/
def decode : PortWord → Except WordReject Instr
  | .command w => decodeCommand w
  | .bus k => decodeKind k

/-- OP of a command (R92); the kind code, widened, of a transaction (R95). -/
def Instr.opcode : Instr → BitVec 8
  | .decDt => 0x01
  | .decTemp => 0x02
  | .encDt => 0x03
  | .encAl1 _ => 0x04
  | .encAl2 _ => 0x05
  | .getDt => 0x10
  | .setDt => 0x11
  | .setAl1 _ => 0x12
  | .setAl2 _ => 0x13
  | .getTemp => 0x14
  | .isRunning => 0x20
  | .enableOsc => 0x21
  | .isAl1Set => 0x22
  | .isAl2Set => 0x23
  | .setIntPin _ => 0x24
  | .dumpRegs => 0x30
  | .readBlock => 0
  | .writeBlock => 1
  | .testBit => 2
  | .changeBit => 3
  | .writeMasked => 4

/-- ARG of a command: the mode tag or the pin mode, 0 for every other one (R90, R92). -/
def Instr.arg : Instr → BitVec 5
  | .encAl1 m => m
  | .encAl2 m => m
  | .setAl1 m => m
  | .setAl2 m => m
  | .setIntPin p => p
  | .decDt | .decTemp | .encDt | .getDt | .setDt | .getTemp | .isRunning | .enableOsc
  | .isAl1Set | .isAl2Set | .dumpRegs
  | .readBlock | .writeBlock | .testBit | .changeBit | .writeMasked => 0

/-- "The word of a command is `(ARG << 8) | OP`" (R92). -/
def commandWord (op : BitVec 8) (arg : BitVec 5) : BitVec 16 :=
  ((arg.setWidth 16) <<< 8) ||| op.setWidth 16

/-- The encoder: the word of an instruction on its port (R92, R95). -/
def encode (i : Instr) : PortWord :=
  if i.isCommand then .command (commandWord i.opcode i.arg) else .bus (i.opcode.setWidth 3)

/-- The word of a row of the opcode table as the table numbers its bits. A command row has 16 bits
(R90), a bus row 3, held in one byte (R95); the bits above the row's own are 0, and a number the row's
bits cannot hold is no word. Log entry 20. -/
def tableWord (nbits w : Nat) : Option PortWord :=
  if nbits ≤ 8 then (if w < 8 then some (.bus (BitVec.ofNat 3 w)) else none)
  else (if w < 65536 then some (.command (BitVec.ofNat 16 w)) else none)

/-- The instruction the decoder reads from a table row's word. -/
def decodeTableWord (nbits w : Nat) : Option Instr :=
  match tableWord nbits w with
  | none => none
  | some pw =>
    match decode pw with
    | .ok i => some i
    | .error _ => none

end Sys2Proof
end

