-- ==== Sys2Proof/Machine/State.lean ====
section
/-! DEFINITION. The state of the block, of the chip's register file and of the ports between them
(spec/10_state.md R20 to R37), the state after construction (R33), and the reasons a step can stop. -/

namespace Sys2Proof.Machine

/-- Success or Error: the two-valued status (R23, R191). -/
inductive Status where
  | success
  | error
  deriving DecidableEq, Repr

/-- The internal cause of an Error (R190); not visible to the caller (R191). -/
inductive Cause where
  | none
  | busFail
  | yearRange
  deriving DecidableEq, Repr

/-- A command's result value; its form depends on the command (R23, R92). -/
inductive Value where
  /-- DEC_DT, GET_DT. -/
  | dateTime (dt : DateTimeValue)
  /-- DEC_TEMP, GET_TEMP: quarter degrees Celsius, exact (R106). -/
  | temperature (quarters : Int)
  /-- ENC_DT, ENC_AL1, ENC_AL2, DUMP_REGS: a register block, ascending addresses. -/
  | bytes (b : List Byte)
  /-- IS_RUNNING, IS_AL1_SET, IS_AL2_SET. -/
  | bool (b : Bool)
  deriving DecidableEq, Repr

/-- The result port's content once a command has completed (R23). -/
structure Result where
  status : Status
  cause : Cause
  value : Option Value
  deriving DecidableEq, Repr

/-- One bus operation with its operands (R95, R171 to R175). -/
inductive Transaction where
  | readBlock (a : RegAddr) (n : Nat)
  | writeBlock (a : RegAddr) (v : List Byte)
  | testBit (a : RegAddr) (m : Byte)
  | changeBit (a : RegAddr) (m : Byte) (d : BitDirection)
  | writeMasked (a : RegAddr) (m : Byte) (v : Byte)
  deriving DecidableEq, Repr

/-- What a transaction returns beside ok: bytes, or the tested bit (R29, R171, R173). -/
inductive BusData where
  | bytes (b : List Byte)
  | bit (set : Bool)
  deriving DecidableEq, Repr

/-- ok or fail (R9, R27). -/
inductive BusOutcome where
  | ok
  | fail
  deriving DecidableEq, Repr

/-- One trace entry: kind, address and operands (the transaction), outcome, data (R29). -/
structure TraceEntry where
  transaction : Transaction
  outcome : BusOutcome
  data : Option BusData
  deriving DecidableEq, Repr

/-- The values a command keeps between its transactions (R22): the flag its first TEST_BIT read.
Log entry 24. -/
structure Locals where
  flag : Option Bool
  deriving DecidableEq, Repr

/-- The empty locals, ∅ of R22. -/
def Locals.empty : Locals := { flag := none }

/-- The sequencer state (R22). -/
inductive Seq where
  | idle
  | busy (cmd : Instr) (step : Nat) (locals : Locals)
  deriving DecidableEq, Repr

/-- The operands on the bus-master port beside the kind code of a transaction (R95). Each transaction reads
the ones its row of R95 lists. Log entry 9. -/
structure BusOperands where
  addr : RegAddr
  len : Nat
  mask : Byte
  dir : BitDirection
  value : Byte
  bytes : List Byte
  deriving DecidableEq, Repr

/-- The caller's next request: a command word and the operands on the operand ports (R2, R90, R91). -/
structure Request where
  word : BitVec 16
  dt : DateTimeValue
  blk : List Byte
  deriving DecidableEq, Repr

/-- The register file as (address, byte) pairs, addresses rising; an address that is not listed has no
value of its own yet and reads as the free value of its content at construction. Log entry 5. -/
abbrev Memory := List Host.Cell

/-- The whole machine. -/
structure State where
  /-- YEAR_BASE, 0..65270, never written (R20). -/
  yearBase : Fin 65271
  /-- The sequencer (R22). -/
  seq : Seq
  /-- The result port; absent until a command completes (R23, R33). -/
  result : Option Result
  /-- The chip's register file `R` (R24). -/
  regs : Memory
  /-- The issued transactions, oldest first (R29). -/
  trace : List TraceEntry
  /-- The command port: requests not yet accepted, oldest first (R22, R90). -/
  requests : List Request
  /-- The DT operand port (R91). -/
  dtPort : DateTimeValue
  /-- The BLK operand port (R91). -/
  blkPort : List Byte
  /-- The operands on the bus-master port for a bus row of the opcode table (R95; log entry 9). -/
  busPort : BusOperands
  /-- The model's own: the bus draws fixed for the coming transactions, next first (log entry 2). -/
  draws : List Draw
  /-- The model's own: how many draws were used (log entry 2). -/
  drawCount : Nat
  deriving DecidableEq, Repr

/-- The DT port before any request: the least valid date of the default YEAR_BASE (DESIGN CHOICE, unsafe:
log entry 6). -/
def State.resetDt : DateTimeValue :=
  { year := 2000, month := 1, dom := 1, hour := 0, minute := 0, second := 0, dow := 0 }

/-- The bus operands before any request: the least legal ones (DESIGN CHOICE, unsafe: log entry 6). -/
def State.resetBus : BusOperands :=
  { addr := 0x00, len := 1, mask := 0x01, dir := .clear, value := 0x00, bytes := [0x00] }

/-- Construction with a given YEAR_BASE (R33, R210): Idle, no result, empty trace, the register file
unspecified (nothing listed). -/
def State.construct (yearBase : Fin 65271) : State :=
  { yearBase := yearBase
    seq := .idle
    result := none
    regs := []
    trace := []
    requests := []
    dtPort := State.resetDt
    blkPort := []
    busPort := State.resetBus
    draws := []
    drawCount := 0 }

/-- The machine after construction with no YEAR_BASE given: 2000 (R33). -/
def State.reset : State := State.construct Config.defaultYearBase

/-- Where the spec has no step for what is asked: the machine is stuck, by name. -/
inductive Fault where
  /-- Raised by a command when another command holds the sequencer: "the model has no step for an
  overlapping command" (R216; 93 U24: stuck). Safe: the machine stops where the spec gives no step. -/
  | overlappingCommand
  /-- Raised by a command's meaning in a sequencer state R22 does not give that command: a step past its
  last transaction, or locals it never keeps. Safe: no such state is reached (log entry 11). -/
  | sequencerState
  /-- Raised by a bus row of the opcode table where the block issues no such transaction: while Idle ("The
  block never issues a transaction outside a command", R170), or at a step of the command in hand that
  issues another kind or none (SET_DT with a year out of range, R142), or a read of another length than the
  command decodes. Safe: the spec gives no such
  transaction (log entry 8). -/
  | notIssued
  deriving DecidableEq, Repr

/-- What the spec refuses: no transaction, no result (R193). Each is safe: the spec's own boundary. -/
inductive Refusal where
  /-- Raised by the dispatch for an instruction that has no meaning yet. Safe. -/
  | notModelled (mnemonic : String)
  /-- Raised by the step for a word the decoder refuses (R93.1 to R93.4, R95). Safe. -/
  | word (r : WordReject)
  /-- Raised by SET_INT_PIN for a pin mode outside INT_PIN_MODES, should it reach the meaning (R93.4). Safe. -/
  | pinMode
  /-- Raised by DEC_DT and DEC_TEMP when BLK does not hold exactly 7 or 2 bytes (R93.5). Safe. -/
  | blkLength
  /-- Raised by ENC_DT, ENC_AL1, ENC_AL2, SET_DT, SET_AL1 and SET_AL2 for a DT outside the invariant
  (R121). Safe. -/
  | dtInvariant
  /-- Raised by a transaction outside 0x00..0x12, or a READ_BLOCK of no byte (R51, R171, D20). Safe. -/
  | addressRange
  /-- Raised by TEST_BIT and CHANGE_BIT for a mask that has not exactly one bit set (R173, R174, D23). Safe. -/
  | maskNotOneBit
  deriving DecidableEq, Repr

/-- The outcome of an instruction or a step. -/
abbrev Out := Host.Outcome State Fault Refusal

end Sys2Proof.Machine
end

