-- ==== Sys2Proof/Machine/Ops.lean ====
section
/-! DEFINITION. The named operations over the register file, the bus and the sequencer: reading and
writing registers (spec/20_memory.md R50 to R57), the five transactions and their failure
(spec/43_bus.md R170 to R177), accepting and ending a command (spec/10_state.md R22), an Error
(spec/60_exceptions.md R195), and taking a request from the command port (spec/30_encoding.md R90). -/

namespace Sys2Proof.Machine

/-! ### The register file -/

/-- The byte listed for an address; none where nothing has been written since construction. -/
def Memory.listed : Memory → Nat → Option Byte
  | [], _ => none
  | (b, v) :: rest, a => if b = a then some v else Memory.listed rest a

/-- `R[a]`: the listed byte, else the free content at construction (R24, R33). -/
def Memory.read (m : Memory) (a : Nat) : Byte := (Memory.listed m a).getD (Config.powerOnByte a)

/-- List a byte at an address, in address order. -/
def Memory.insert : Memory → Nat → Byte → Memory
  | [], a, v => [(a, v)]
  | (b, w) :: rest, a, v =>
    if a < b then (a, v) :: (b, w) :: rest
    else if a = b then (a, v) :: rest
    else (b, w) :: Memory.insert rest a v

/-- `R[a] <- v`. There is no register at 0x13 or above (R50), so nothing is listed there. -/
def Memory.write (m : Memory) (a : Nat) (v : Byte) : Memory :=
  if a < registerCount then Memory.insert m a v else m

/-- `{R[a], R[a+1], …, R[a+n−1]}` (R52). -/
def Memory.block (m : Memory) (a n : Nat) : List Byte :=
  (List.range n).map (fun i => Memory.read m (a + i))

/-- `R[a+i] <- v[i]` for each byte of `v` (R52, R172). -/
def Memory.writeBlock : Memory → Nat → List Byte → Memory
  | m, _, [] => m
  | m, a, v :: rest => Memory.writeBlock (Memory.write m a v) (a + 1) rest

/-- The chip environment's changes, in order (R26). -/
def Memory.change : Memory → List (Nat × Byte) → Memory
  | m, [] => m
  | m, (a, v) :: rest => Memory.change (Memory.write m a v) rest

/-- The canonical form: addresses strictly rising, each a register's. -/
def Memory.wf : Memory → Bool
  | [] => true
  | (a, _) :: rest => a < registerCount && rest.all (fun c => a < c.1) && Memory.wf rest

/-! ### Transactions -/

/-- A one-byte transaction's address is a register's (R51, R170). -/
def addressRefusal (a : RegAddr) : Option Refusal :=
  if a.toNat < registerCount then none else some .addressRange

/-- A one-bit transaction: its address, then its mask (R173, R174). -/
def oneBitRefusal (a : RegAddr) (m : Byte) : Option Refusal :=
  match addressRefusal a with
  | some r => some r
  | none => if isOneBit m then none else some .maskNotOneBit

/-- Why a transaction is refused; none if it is admitted (R51, R171 to R174; D20, D23). -/
def Transaction.refusal : Transaction → Option Refusal
  | .readBlock a n => if 1 ≤ n ∧ a.toNat + n ≤ registerCount then none else some .addressRange
  | .writeBlock a v => if a.toNat + v.length ≤ registerCount then none else some .addressRange
  | .testBit a m => oneBitRefusal a m
  | .changeBit a m _ => oneBitRefusal a m
  | .writeMasked a _ _ => addressRefusal a

/-- The addresses a transaction stores to: the first one and how many; a read stores to none (R57, R172,
R174, R175). -/
def Transaction.stores : Transaction → Nat × Nat
  | .readBlock a _ => (a.toNat, 0)
  | .writeBlock a v => (a.toNat, v.length)
  | .testBit a _ => (a.toNat, 0)
  | .changeBit a _ _ => (a.toNat, 1)
  | .writeMasked a _ _ => (a.toNat, 1)

/-- The bytes a transaction that succeeds stores, from its first address on (R172, R174, R175). -/
def Transaction.newBytes (m : Memory) : Transaction → List Byte
  | .readBlock _ _ => []
  | .writeBlock _ v => v
  | .testBit _ _ => []
  | .changeBit a k d => [changedBit (Memory.read m a.toNat) k d]
  | .writeMasked a k v => [maskedByte (Memory.read m a.toNat) k v]

/-- What a transaction that succeeds returns (R171, R173). -/
def Transaction.returned (m : Memory) : Transaction → Option BusData
  | .readBlock a n => some (.bytes (Memory.block m a.toNat n))
  | .writeBlock _ _ => none
  | .testBit a k => some (.bit (bitIsSet (Memory.read m a.toNat) k))
  | .changeBit _ _ _ => none
  | .writeMasked _ _ _ => none

/-- The kind code of a transaction (R95). -/
def Transaction.kind : Transaction → BitVec 3
  | .readBlock _ _ => 0
  | .writeBlock _ _ => 1
  | .testBit _ _ => 2
  | .changeBit _ _ _ => 3
  | .writeMasked _ _ _ => 4

/-- Every transaction addresses the chip at 0x68 (R170). -/
def Transaction.busAddress (_ : Transaction) : BitVec 7 := Config.chipBusAddress

/-- The register file after a success (`R[a+i] <-` the new bytes), all at one instant (R56). -/
def Transaction.applied (t : Transaction) (m : Memory) : Memory :=
  Memory.writeBlock m t.stores.1 (t.newBytes m)

/-- The register file after a failure: each addressed byte of a write holds whatever the draw leaves
there, every other byte is unchanged (R176). -/
def Transaction.failed (t : Transaction) (left : List Byte) (m : Memory) : Memory :=
  Memory.writeBlock m t.stores.1 (left.take t.stores.2)

/-- The next draw: the one already fixed, else the free one (log entry 2). -/
def State.draw (s : State) : Draw :=
  match s.draws with
  | [] => Config.freeDraw s.drawCount
  | d :: _ => d

/-- `R` as the next transaction finds it: after the chip environment's changes (R26). -/
def State.found (s : State) : Memory := Memory.change s.regs s.draw.env

/-- "Each completed transaction increases `step` by one" (R22). -/
def Seq.advance : Seq → Seq
  | .idle => .idle
  | .busy i k l => .busy i (k + 1) l

/-- The state once a transaction has ended: the register file it leaves, its trace entry, its draw
used up, the sequencer moved on (R22, R29). -/
def State.issued (s : State) (m : Memory) (e : TraceEntry) : State :=
  { s with
    regs := m
    trace := s.trace ++ [e]
    seq := s.seq.advance
    draws := s.draws.tail
    drawCount := s.drawCount + 1 }

/-- One transaction (R170 to R177): it ends in ok, with what it returns, or in fail, with nothing. -/
def transact (t : Transaction) (s : State) : TraceEntry × State :=
  let e : TraceEntry :=
    if s.draw.ok then { transaction := t, outcome := .ok, data := t.returned s.found }
    else { transaction := t, outcome := .fail, data := none }
  (e, s.issued (if s.draw.ok then t.applied s.found else t.failed s.draw.left s.found) e)

/-! The primitives of R9 issue a transaction and look at what it answers: `MemRead` the bytes, `TestBit` the
bit, `MemWrite`, `ChangeBit` and `WriteMasked` only whether it was ok. -/

/-- What a `MemRead` answers: the bytes, or none for fail (R9). -/
def TraceEntry.bytes : TraceEntry → Option (List Byte)
  | ⟨_, .ok, some (.bytes b)⟩ => some b
  | _ => none

/-- What a `TestBit` answers: set or clear, or none for fail (R9). -/
def TraceEntry.bit : TraceEntry → Option Bool
  | ⟨_, .ok, some (.bit b)⟩ => some b
  | _ => none

/-- What a `MemWrite`, `ChangeBit` or `WriteMasked` answers: was it ok (R9)? -/
def TraceEntry.isOk (e : TraceEntry) : Bool := e.outcome == .ok

/-! ### The sequencer -/

/-- Acceptance moves the sequencer to Busy(cmd, 0, ∅) (R22). -/
def State.accept (s : State) (i : Instr) : State := { s with seq := .busy i 0 Locals.empty }

/-- The end of a command: the result port takes the outcome, the sequencer is Idle (R22, R23). -/
def State.finish (s : State) (r : Result) : State := { s with seq := .idle, result := some r }

/-- `(Success, v)` (R23). -/
def succeeded (v : Option Value) : Result := { status := .success, cause := .none, value := v }

/-- `Error(cause)`, without a value (R23, R195). -/
def errorOf (c : Cause) : Result := { status := .error, cause := c, value := none }

/-- The code of a cause (R190, D16). -/
def Cause.code : Cause → Nat
  | .none => 0
  | .busFail => 1
  | .yearRange => 2

/-- `return (Success, v)` (R9). -/
def State.succeed (s : State) (v : Option Value) : State := s.finish (succeeded v)

/-- `raise Error(cause)` (R9, R195): no value, nothing saved, nothing undone. -/
def State.raise (s : State) (c : Cause) : State := s.finish (errorOf c)

/-- Keep the flag just read for the command's next transaction (R22). -/
def Seq.keep (flag : Bool) : Seq → Seq
  | .idle => .idle
  | .busy i k _ => .busy i k { flag := some flag }

/-- The command goes on: the flag it read stays in its locals (R22). -/
def State.keepFlag (s : State) (flag : Bool) : State := { s with seq := s.seq.keep flag }

/-- What a command's pseudocode does next: end, or issue a transaction (R10). -/
inductive Move where
  | ends (r : Result)
  | issues (x : Transaction)
  deriving DecidableEq, Repr

/-- One stage of a command's pseudocode: the locals it starts from, what it does next, which transactions on
the bus-master port it could issue (by kind, and by length where it decodes the bytes), and what it makes
of the transaction's answer. -/
structure Stage where
  expects : Locals
  move : State → Move
  takes : Transaction → Bool
  resume : TraceEntry → State → State

/-- Issue a transaction and go on with its answer. -/
def Stage.perform (st : Stage) (x : Transaction) (s : State) : State :=
  st.resume (transact x s).1 (transact x s).2

/-- Run a stage: up to and with its transaction. -/
def Stage.run (st : Stage) (s : State) : State :=
  match st.move s with
  | .ends r => s.finish r
  | .issues x => st.perform x s

/-- A command without a transaction: one stage that ends it (R101, R105, R122, R126, R127). -/
def pureStage (result : State → Result) : Stage :=
  { expects := Locals.empty
    move := fun s => .ends (result s)
    takes := fun _ => false
    resume := fun _ s => s }

/-- Run stage `k` of a command whose sequencer state is Busy(cmd, k, l). -/
def runStage (stages : List Stage) (k : Nat) (l : Locals) (s : State) : Out :=
  match stages[k]? with
  | none => .fault .sequencerState
  | some st => if l = st.expects then .next (st.run s) else .fault .sequencerState

/-- One move of the sequencer on command `i` (R22): from Idle it accepts `i` and runs its first stage;
while `i` is in hand it runs the stage `step` counts; another command in hand leaves it stuck (R216). -/
def sequence (i : Instr) (stages : List Stage) (s : State) : Out :=
  match s.seq with
  | .idle => runStage stages 0 Locals.empty (s.accept i)
  | .busy j k l => if j = i then runStage stages k l s else .fault .overlappingCommand

/-- The admission of the DT operand (R121). -/
def admitDateTime (s : State) : Option Refusal :=
  if dateTimeValid s.dtPort then none else some .dtInvariant

/-- The admission of a BLK operand of `n` bytes (R93.5). -/
def admitBlock (n : Nat) (s : State) : Option Refusal :=
  if s.blkPort.length = n then none else some .blkLength

/-- The admission of a pin mode (R93.4). -/
def admitPinMode (p : BitVec 5) : Option Refusal :=
  if Config.intPinModes.contains p then none else some .pinMode

/-- Why a command is refused for an operand; none if it is admitted (R193). -/
def admission : Instr → State → Option Refusal
  | .decDt, s => admitBlock 7 s
  | .decTemp, s => admitBlock 2 s
  | .encDt, s => admitDateTime s
  | .encAl1 _, s => admitDateTime s
  | .encAl2 _, s => admitDateTime s
  | .setDt, s => admitDateTime s
  | .setAl1 _, s => admitDateTime s
  | .setAl2 _, s => admitDateTime s
  | .setIntPin p, _ => admitPinMode p
  | .getDt, _ | .getTemp, _ | .isRunning, _ | .enableOsc, _ | .isAl1Set, _ | .isAl2Set, _
  | .dumpRegs, _ => none
  | .readBlock, _ | .writeBlock, _ | .testBit, _ | .changeBit, _ | .writeMasked, _ => none

/-- One move of a command: its admission comes first (R140.1, R194.1). -/
def command (i : Instr) (stages : List Stage) (s : State) : Out :=
  match admission i s with
  | some r => .refused r
  | none => sequence i stages s

/-- Does a stage, from the state `s`, issue a transaction such as `x`? Not where it ends the command without
one (R142, R194.2). -/
def Stage.issues (st : Stage) (x : Transaction) (s : State) : Bool :=
  match st.move s with
  | .ends _ => false
  | .issues _ => st.takes x

/-- A transaction by its table row: the one the command in hand issues at its step, with the operands on
the bus-master port (R95, R170); `stages` are the stages of each command. The transaction and the command
are admitted, the command issues such a one, it takes place, and the command goes on with its answer (R194).
While Idle the block issues none (R170; log entries 8 and 18). -/
def transactInHand (stages : Instr → List Stage) (x : Transaction) (s : State) : Out :=
  match s.seq with
  | .idle => .fault .notIssued
  | .busy c k l =>
    match x.refusal with
    | some r => .refused r
    | none =>
      match admission c s with
      | some r => .refused r
      | none =>
        match (stages c)[k]? with
        | none => .fault .sequencerState
        | some st =>
          if l = st.expects then
            if st.issues x s then .next (st.perform x s) else .fault .notIssued
          else .fault .sequencerState

/-! ### The command port -/

/-- Take the next request: its word, with its operands put on the operand ports (R90, R91). -/
def State.takeRequest (s : State) : Option (BitVec 16 × State) :=
  match s.requests with
  | [] => none
  | r :: rest => some (r.word, { s with requests := rest, dtPort := r.dt, blkPort := r.blk })

/-- A block operand of exactly `n` bytes, from the bytes on a port: cut, or filled up with zeros. -/
def fitBlock (n : Nat) (b : List Byte) : List Byte := (b ++ List.replicate n 0).take n

/-- The BLK operand a word needs, from the bytes on the port: 7 for DEC_DT, 2 for DEC_TEMP (R93.5). -/
def blockFor (w : BitVec 16) (b : List Byte) : List Byte :=
  if w = 0x0001 then fitBlock 7 b else if w = 0x0002 then fitBlock 2 b else b

/-- Present a command word as the next request, with the operands that stand on the ports (log entry 19). -/
def State.present (s : State) (w : BitVec 16) : State :=
  { s with
    seq := .idle
    requests := { word := w, dt := s.dtPort, blk := blockFor w s.blkPort } :: s.requests }

/-! ### The bus-master port -/

/-- The port with the operands of a transaction on it; what its row of R95 does not list stays. -/
def Transaction.operands (p : BusOperands) : Transaction → BusOperands
  | .readBlock a n => { p with addr := a, len := n }
  | .writeBlock a v => { p with addr := a, bytes := v }
  | .testBit a m => { p with addr := a, mask := m }
  | .changeBit a m d => { p with addr := a, mask := m, dir := d }
  | .writeMasked a m v => { p with addr := a, mask := m, value := v }

/-- An admitted DT operand: the one on the port, or the reset one. -/
def fitDateTime (dt : DateTimeValue) : DateTimeValue :=
  if dateTimeValid dt then dt else State.resetDt

/-- A command whose first transaction has the kind: the one that is in hand when a bus row is placed. -/
def carrier (k : BitVec 3) : Option Instr :=
  if k = 0 then some .dumpRegs
  else if k = 1 then some (.setAl2 0x00)
  else if k = 2 then some .isRunning
  else if k = 3 then some .enableOsc
  else if k = 4 then some (.setIntPin 0x00)
  else none

/-- Place a kind code: its carrier is in hand, and the transaction it issues stands on the bus-master port;
a code that is never issued (R95) changes nothing (log entry 19). -/
def State.presentKind (s : State) (stages : Instr → List Stage) (k : BitVec 3) : State :=
  match carrier k with
  | none => s
  | some c =>
    let t := { s.accept c with dtPort := fitDateTime s.dtPort }
    match stages c with
    | [] => t
    | st :: _ =>
      match st.move t with
      | .ends _ => t
      | .issues x => { t with busPort := x.operands t.busPort }

end Sys2Proof.Machine
end

