-- ==== Sys2Proof/Machine/Control.lean ====
section
/-! DEFINITION. The status and control bit operations (spec/42_driver.md R146 to R150): IS_RUNNING,
ENABLE_OSC, IS_AL1_SET, IS_AL2_SET, SET_INT_PIN. -/

namespace Sys2Proof.Machine

/-- Is it a TEST_BIT? -/
def isTestBit : Transaction → Bool
  | .testBit _ _ => true
  | _ => false

/-- Is it a CHANGE_BIT? -/
def isChangeBit : Transaction → Bool
  | .changeBit _ _ _ => true
  | _ => false

/-- Is it a WRITE_MASKED? -/
def isWriteMasked : Transaction → Bool
  | .writeMasked _ _ _ => true
  | _ => false

/-- Test a bit and go on with it; a failed test is Error(BUS_FAIL) (R140.3). -/
def testStage (expects : Locals) (r : Reg) (m : Byte) (goOn : Bool → State → State) : Stage :=
  { expects := expects
    move := fun _ => .issues (.testBit (regAddr r) m)
    takes := isTestBit
    resume := fun e s =>
      match e.bit with
      | some b => goOn b s
      | none => s.raise .busFail }

/-- Clear a bit and go on; a failed clear is Error(BUS_FAIL) (R140.3). -/
def clearStage (r : Reg) (m : Byte) (goOn : State → State) : Stage :=
  { expects := Locals.empty
    move := fun _ => .issues (.changeBit (regAddr r) m .clear)
    takes := isChangeBit
    resume := fun e s => if e.isOk then goOn s else s.raise .busFail }

/-- The stages of IS_RUNNING (R146): OSF set ends the command with false, the control register unread; else
running iff the active-low enable bit is clear. -/
def isRunningStages : List Stage :=
  [ testStage Locals.empty .status Config.osfMask fun stopped s =>
      if stopped then s.succeed (some (.bool false)) else s.keepFlag false
  , testStage { flag := some false } .control Config.eoscMask fun disabled s =>
      s.succeed (some (.bool (!disabled))) ]

/-- The stages of ENABLE_OSC (R147, R213): start the oscillator, then clear the stop flag. -/
def enableOscStages : List Stage :=
  [ clearStage .control Config.eoscMask fun s => s
  , clearStage .status Config.osfMask fun s => s.succeed none ]

/-- The stages of IS_AL1_SET and IS_AL2_SET (R148, R149): a clear flag ends the command with false; a set one
is acknowledged, and the outcome of that clear is ignored (R192). -/
def firedStages (mask : Byte) : List Stage :=
  [ testStage Locals.empty .status mask fun fired s =>
      if fired then s.keepFlag true else s.succeed (some (.bool false))
  , { expects := { flag := some true }
      move := fun _ => .issues (.changeBit (regAddr .status) mask .clear)
      takes := isChangeBit
      resume := fun _ s => s.succeed (some (.bool true)) } ]

/-- The stage of SET_INT_PIN (R150): one masked write of the pin-mode field. -/
def setIntPinStages (p : BitVec 5) : List Stage :=
  [ { expects := Locals.empty
      move := fun _ => .issues (.writeMasked (regAddr .control) Config.pinFieldMask (argByte p))
      takes := isWriteMasked
      resume := fun e s => if e.isOk then s.succeed none else s.raise .busFail } ]

/-- IS_RUNNING (R146). -/
def execIsRunning (s : State) : Out := command .isRunning isRunningStages s

/-- ENABLE_OSC (R147). -/
def execEnableOsc (s : State) : Out := command .enableOsc enableOscStages s

/-- IS_AL1_SET (R148). -/
def execIsAl1Set (s : State) : Out := command .isAl1Set (firedStages Config.a1fMask) s

/-- IS_AL2_SET (R149). -/
def execIsAl2Set (s : State) : Out := command .isAl2Set (firedStages Config.a2fMask) s

/-- SET_INT_PIN (R150); a value outside INT_PIN_MODES is refused (R93.4). -/
def execSetIntPin (p : BitVec 5) (s : State) : Out := command (.setIntPin p) (setIntPinStages p) s

end Sys2Proof.Machine
end

