-- ==== Sys2Proof/Machine/Codec.lean ====
section
/-! DEFINITION. The codec and its five pure commands (spec/40_decode.md R101 to R106, spec/41_encode.md
R120 to R129): DEC_DT, DEC_TEMP, ENC_DT, ENC_AL1, ENC_AL2. None issues a transaction. -/

namespace Sys2Proof.Machine

/-- `year_decode(y, c) = YEAR_BASE + bcd2bin(y) + 100 * c` (R102). -/
def yearDecode (yearBase : Nat) (y : Byte) (c : Bool) : Nat :=
  yearBase + bcd2bin y + (if c then 100 else 0)

/-- decodeDateTime (R101, R102, R103), on the seven bytes of the date-time block. -/
def decodeDateTime (yearBase : Nat) (blk : List Byte) : DateTimeValue :=
  { second := BitVec.ofNat 8 (bcd2bin (blockByte blk 0 &&& 0x7F))
    minute := BitVec.ofNat 8 (bcd2bin (blockByte blk 1 &&& 0x7F))
    hour := BitVec.ofNat 8 (bcd2bin (blockByte blk 2 &&& 0x3F))
    dow := BitVec.ofNat 8 (((blockByte blk 3 &&& 0x07).toNat + 7) % 8)
    dom := BitVec.ofNat 8 (bcd2bin (blockByte blk 4 &&& 0x3F))
    month := BitVec.ofNat 8 (bcd2bin (blockByte blk 5 &&& 0x1F))
    year := BitVec.ofNat 16
      (yearDecode yearBase (blockByte blk 6) (centuryFlag (blockByte blk 5))) }

/-- decodeTemperature (R105, R106), on the two bytes of the temperature block: quarter degrees, the
fraction taken with the sign of the whole degrees. -/
def decodeTemperature (blk : List Byte) : Int :=
  let h := (blockByte blk 0).toInt
  let f : Int := (blockByte blk 1).toNat / 64
  if 0 ≤ h then 4 * h + f else 4 * h - f

/-- encodeDateTime (R122 to R125): seven bytes, or Error(YEAR_RANGE). -/
def encodeDateTime (yearBase : Nat) (dt : DateTimeValue) : Except Cause (List Byte) :=
  if dt.year.toNat < yearBase ∨ yearBase + 200 ≤ dt.year.toNat then .error .yearRange
  else
    let c := decide (yearBase + 100 ≤ dt.year.toNat)
    let yy := dt.year.toNat - yearBase - (if c then 100 else 0)
    .ok
      [ bin2bcd dt.second.toNat
      , bin2bcd dt.minute.toNat
      , bin2bcd dt.hour.toNat
      , BitVec.ofNat 8 (dt.dow.toNat + 1)
      , bin2bcd dt.dom.toNat
      , bin2bcd dt.month.toNat ||| (if c then 0x80 else 0x00)
      , bin2bcd yy ]

/-- `field_byte(v, i) = bin2bcd(v) | (i << 7)` (R128). -/
def fieldByte (v : Byte) (ignored : Bool) : Byte := withIgnoreBit (bin2bcd v.toNat) ignored

/-- `day_byte(m, dt)` (R129): the day of week with its selector, or the day of month. -/
def dayByte (m : BitVec 5) (dt : DateTimeValue) : Byte :=
  withIgnoreBit
    (if dayOfWeekSelected m then bin2bcd (dt.dow.toNat + 1) ||| Config.dydtMask
     else bin2bcd dt.dom.toNat)
    (dayIgnored m)

/-- encodeAlarm for alarm 2 (R127): minutes, hours, day. -/
def encodeAlarm2 (m : BitVec 5) (dt : DateTimeValue) : List Byte :=
  [fieldByte dt.minute (minutesIgnored m), fieldByte dt.hour (hoursIgnored m), dayByte m dt]

/-- encodeAlarm for alarm 1 (R126): seconds, minutes, hours, day. -/
def encodeAlarm1 (m : BitVec 5) (dt : DateTimeValue) : List Byte :=
  [ fieldByte dt.second (secondsIgnored m)
  , fieldByte dt.minute (minutesIgnored m)
  , fieldByte dt.hour (hoursIgnored m)
  , dayByte m dt ]

/-- The result of a block encoding that can fail (R122). -/
def blockResult : Except Cause (List Byte) → Result
  | .ok b => succeeded (some (.bytes b))
  | .error c => errorOf c

/-- DEC_DT (R101). -/
def execDecDt (s : State) : Out :=
  command .decDt
    [pureStage fun s => succeeded (some (.dateTime (decodeDateTime s.yearBase s.blkPort)))] s

/-- DEC_TEMP (R105). -/
def execDecTemp (s : State) : Out :=
  command .decTemp
    [pureStage fun s => succeeded (some (.temperature (decodeTemperature s.blkPort)))] s

/-- ENC_DT (R122). -/
def execEncDt (s : State) : Out :=
  command .encDt [pureStage fun s => blockResult (encodeDateTime s.yearBase s.dtPort)] s

/-- ENC_AL1 (R126). -/
def execEncAl1 (m : BitVec 5) (s : State) : Out :=
  command (.encAl1 m)
    [pureStage fun s => succeeded (some (.bytes (encodeAlarm1 m s.dtPort)))] s

/-- ENC_AL2 (R127). -/
def execEncAl2 (m : BitVec 5) (s : State) : Out :=
  command (.encAl2 m)
    [pureStage fun s => succeeded (some (.bytes (encodeAlarm2 m s.dtPort)))] s

end Sys2Proof.Machine
end

