-- ==== Sys2Proof/Machine/Driver.lean ====
section
/-! DEFINITION. The block transfers of the facade and the diagnostic (spec/42_driver.md R140 to R145, R151):
GET_DT, SET_DT, SET_AL1, SET_AL2, GET_TEMP, DUMP_REGS. -/

namespace Sys2Proof.Machine

/-- Is it a READ_BLOCK? -/
def isReadBlock : Transaction → Bool
  | .readBlock _ _ => true
  | _ => false

/-- Is it a READ_BLOCK of `n` bytes? -/
def isReadOf (n : Nat) : Transaction → Bool
  | .readBlock _ m => m == n
  | _ => false

/-- Is it a WRITE_BLOCK? -/
def isWriteBlock : Transaction → Bool
  | .writeBlock _ _ => true
  | _ => false

/-- Read a block and return a value made of it; a failed read is Error(BUS_FAIL) (R140.3). -/
def readStage (r : Reg) (n : Nat) (takes : Transaction → Bool) (value : State → List Byte → Value) :
    Stage :=
  { expects := Locals.empty
    move := fun _ => .issues (.readBlock (regAddr r) n)
    takes := takes
    resume := fun e s =>
      match e.bytes with
      | some b => s.succeed (some (value s b))
      | none => s.raise .busFail }

/-- Write a block and return no value; a failed write is Error(BUS_FAIL) (R140.3). -/
def writeStage (r : Reg) (block : State → Except Cause (List Byte)) : Stage :=
  { expects := Locals.empty
    move := fun s =>
      match block s with
      | .error c => .ends (errorOf c)
      | .ok b => .issues (.writeBlock (regAddr r) b)
    takes := isWriteBlock
    resume := fun e s => if e.isOk then s.succeed none else s.raise .busFail }

/-- The stage of GET_DT. -/
def getDtStages : List Stage :=
  [readStage .seconds 7 (isReadOf 7) fun s b => .dateTime (decodeDateTime s.yearBase b)]

/-- The stage of SET_DT: the year check comes before any transaction (R142, D22). -/
def setDtStages : List Stage := [writeStage .seconds fun s => encodeDateTime s.yearBase s.dtPort]

/-- The stage of SET_AL1. -/
def setAl1Stages (m : BitVec 5) : List Stage :=
  [writeStage .alarm1Seconds fun s => .ok (encodeAlarm1 m s.dtPort)]

/-- The stage of SET_AL2. -/
def setAl2Stages (m : BitVec 5) : List Stage :=
  [writeStage .alarm2Minutes fun s => .ok (encodeAlarm2 m s.dtPort)]

/-- The stage of GET_TEMP. -/
def getTempStages : List Stage :=
  [readStage .temperatureHigh 2 (isReadOf 2) fun _ b => .temperature (decodeTemperature b)]

/-- The stage of DUMP_REGS. -/
def dumpRegsStages : List Stage :=
  [readStage .seconds registerCount isReadBlock fun _ b => .bytes b]

/-- GET_DT (R141). -/
def execGetDt (s : State) : Out := command .getDt getDtStages s

/-- SET_DT (R142). -/
def execSetDt (s : State) : Out := command .setDt setDtStages s

/-- SET_AL1 (R143). -/
def execSetAl1 (m : BitVec 5) (s : State) : Out := command (.setAl1 m) (setAl1Stages m) s

/-- SET_AL2 (R144). -/
def execSetAl2 (m : BitVec 5) (s : State) : Out := command (.setAl2 m) (setAl2Stages m) s

/-- GET_TEMP (R145). -/
def execGetTemp (s : State) : Out := command .getTemp getTempStages s

/-- DUMP_REGS (R151). -/
def execDumpRegs (s : State) : Out := command .dumpRegs dumpRegsStages s

end Sys2Proof.Machine
end

