-- ==== Sys2Proof/Machine/Bus.lean ====
section
/-! DEFINITION. The five bus transactions as rows of the opcode table (spec/43_bus.md R171 to R175): each is the
transaction the command in hand issues (R170), with the operands on the bus-master port (spec/30_encoding.md
R95). Log entries 8 and 9. -/

namespace Sys2Proof.Machine

/-- The stages of each command that issue transactions; the codec commands and the bus rows have none. -/
def transactionStages : Instr → List Stage
  | .getDt => getDtStages
  | .setDt => setDtStages
  | .setAl1 m => setAl1Stages m
  | .setAl2 m => setAl2Stages m
  | .getTemp => getTempStages
  | .isRunning => isRunningStages
  | .enableOsc => enableOscStages
  | .isAl1Set => firedStages Config.a1fMask
  | .isAl2Set => firedStages Config.a2fMask
  | .setIntPin p => setIntPinStages p
  | .dumpRegs => dumpRegsStages
  | .decDt | .decTemp | .encDt | .encAl1 _ | .encAl2 _
  | .readBlock | .writeBlock | .testBit | .changeBit | .writeMasked => []

/-- READ_BLOCK (R171). -/
def execReadBlock (s : State) : Out :=
  transactInHand transactionStages (.readBlock s.busPort.addr s.busPort.len) s

/-- WRITE_BLOCK (R172). -/
def execWriteBlock (s : State) : Out :=
  transactInHand transactionStages (.writeBlock s.busPort.addr s.busPort.bytes) s

/-- TEST_BIT (R173). -/
def execTestBit (s : State) : Out :=
  transactInHand transactionStages (.testBit s.busPort.addr s.busPort.mask) s

/-- CHANGE_BIT (R174). -/
def execChangeBit (s : State) : Out :=
  transactInHand transactionStages (.changeBit s.busPort.addr s.busPort.mask s.busPort.dir) s

/-- WRITE_MASKED (R175). -/
def execWriteMasked (s : State) : Out :=
  transactInHand transactionStages (.writeMasked s.busPort.addr s.busPort.mask s.busPort.value) s

end Sys2Proof.Machine
end

