-- ==== Sys2Proof/Machine/Dispatch.lean ====
section
/-! DEFINITION. One arm per instruction of spec/opcode_table.json. -/

namespace Sys2Proof.Machine

def exec (i : Instr) (s : State) : Host.Outcome State Fault Refusal :=
  match i with
  | .decDt => Sys2Proof.Machine.execDecDt s
  | .decTemp => Sys2Proof.Machine.execDecTemp s
  | .encDt => Sys2Proof.Machine.execEncDt s
  | .encAl1 m => Sys2Proof.Machine.execEncAl1 m s
  | .encAl2 m => Sys2Proof.Machine.execEncAl2 m s
  | .getDt => Sys2Proof.Machine.execGetDt s
  | .setDt => Sys2Proof.Machine.execSetDt s
  | .setAl1 m => Sys2Proof.Machine.execSetAl1 m s
  | .setAl2 m => Sys2Proof.Machine.execSetAl2 m s
  | .getTemp => Sys2Proof.Machine.execGetTemp s
  | .isRunning => Sys2Proof.Machine.execIsRunning s
  | .enableOsc => Sys2Proof.Machine.execEnableOsc s
  | .isAl1Set => Sys2Proof.Machine.execIsAl1Set s
  | .isAl2Set => Sys2Proof.Machine.execIsAl2Set s
  | .setIntPin p => Sys2Proof.Machine.execSetIntPin p s
  | .dumpRegs => Sys2Proof.Machine.execDumpRegs s
  | .readBlock => Sys2Proof.Machine.execReadBlock s
  | .writeBlock => Sys2Proof.Machine.execWriteBlock s
  | .testBit => Sys2Proof.Machine.execTestBit s
  | .changeBit => Sys2Proof.Machine.execChangeBit s
  | .writeMasked => Sys2Proof.Machine.execWriteMasked s

end Sys2Proof.Machine
end

