-- ==== Sys2Proof/Machine/Step.lean ====
section
/-! DEFINITION. One step of the machine (spec/10_state.md R22, spec/20_memory.md R59) and the placing of a
word where the next step takes its request. -/

namespace Sys2Proof.Machine

/-- One move of the machine. While Busy, the command in hand goes on and the command port is not looked
at (R22, R216). While Idle, the next request is taken, decoded and run; with none the block stays
Idle. -/
def step (s : State) : Host.Outcome State Fault Refusal :=
  match s.seq with
  | .busy i _ _ => exec i s
  | .idle =>
    match s.takeRequest with
    | none => .next s
    | some (w, s') =>
      match decode (.command w) with
      | .error r => .refused (.word r)
      | .ok i => exec i s'

/-- The word of a table row placed so that the next step runs it: a command word as the next request, a kind
code as the transaction of a command in hand (log entry 19). -/
def State.withFetchWord (s : State) (nbits w : Nat) : State :=
  match tableWord nbits w with
  | none => s
  | some (.command c) => s.present c
  | some (.bus k) => s.presentKind transactionStages k

end Sys2Proof.Machine
end

