-- ==== Sys2Proof/Machine/Assembler.lean ====
section
/-! DEFINITION. The assembler syntax and the pseudo-instructions (spec/30_encoding.md R96, R97): one line of
text to one request for the command port. No behaviour of the block rests on it (decision D18). What R96
leaves open of a line's form is the model's choice (DESIGN CHOICE, log entry 26). -/

namespace Sys2Proof.Machine

/-- A token: a word (mnemonic, name or number) or a punctuation mark. -/
inductive AsmToken where
  | word (w : List Char)
  | mark (c : Char)
  deriving DecidableEq, Repr

/-- The opening brace of BLK. -/
def asmOpenBrace : Char := Char.ofNat 0x7B

/-- The closing brace of BLK. -/
def asmCloseBrace : Char := Char.ofNat 0x7D

/-- The marks of R96: comma, parentheses, braces. -/
def asmIsMark (c : Char) : Bool := [',', '(', ')', asmOpenBrace, asmCloseBrace].contains c

/-- The word read so far, as a token; no token where there is none. -/
def asmFlush (acc : List Char) : List AsmToken := if acc.isEmpty then [] else [.word acc]

/-- The tokens of a line; a semicolon starts the comment (R96). -/
def asmTokens : List Char → List Char → List AsmToken
  | [], acc => asmFlush acc
  | c :: cs, acc =>
    if c = ';' then asmFlush acc
    else if c = ' ' ∨ c = '\t' then asmFlush acc ++ asmTokens cs []
    else if asmIsMark c then asmFlush acc ++ .mark c :: asmTokens cs []
    else asmTokens cs (acc ++ [c])

/-- The value of a digit, 0..15. -/
def asmDigit (c : Char) : Option Nat :=
  let n := c.toNat
  if 0x30 ≤ n ∧ n ≤ 0x39 then some (n - 0x30)
  else if 0x41 ≤ n ∧ n ≤ 0x46 then some (n - 0x41 + 10)
  else if 0x61 ≤ n ∧ n ≤ 0x66 then some (n - 0x61 + 10)
  else none

/-- The digits of a number in a base, most significant first, added to `acc`. -/
def asmDigits (base : Nat) : List Char → Nat → Option Nat
  | [], acc => some acc
  | c :: cs, acc =>
    match asmDigit c with
    | none => none
    | some d => if d < base then asmDigits base cs (acc * base + d) else none

/-- A decimal number, as in DT (R96). -/
def asmDecimal (w : List Char) : Option Nat := if w.isEmpty then none else asmDigits 10 w 0

/-- A number written `0x..` or `0b..` (R96). DESIGN CHOICE, log entry 26: either form stands for an ARG and for
a byte of BLK, which R96 writes `0x..` only, and with one digit or more, leading zeros allowed. -/
def asmPrefixed : List Char → Option Nat
  | '0' :: 'x' :: c :: cs => asmDigits 16 (c :: cs) 0
  | '0' :: 'b' :: c :: cs => asmDigits 2 (c :: cs) 0
  | _ => none

/-- One operand of a line (R96). -/
inductive AsmOperand where
  | arg (w : List Char)
  | dt (v : DateTimeValue)
  | blk (b : List Byte)
  deriving DecidableEq, Repr

/-- Words between commas, up to the closing mark: what stands between the brackets of DT or BLK. -/
def asmList (close : Char) : List AsmToken → Option (List (List Char) × List AsmToken)
  | .word w :: .mark c :: rest =>
    if c = close then some ([w], rest)
    else if c = ',' then
      match asmList close rest with
      | some (ws, rest') => some (w :: ws, rest')
      | none => none
    else none
  | _ => none

/-- Seven decimal numbers as a DateTimeValue, in the order of R96, each within its field's width (R28). -/
def asmDateTime : List Nat → Option DateTimeValue
  | [year, month, dom, hour, minute, second, dow] =>
    if year < 65536 ∧ [month, dom, hour, minute, second, dow].all (· < 256) then
      some
        { year := BitVec.ofNat 16 year, month := BitVec.ofNat 8 month, dom := BitVec.ofNat 8 dom
          hour := BitVec.ofNat 8 hour, minute := BitVec.ofNat 8 minute
          second := BitVec.ofNat 8 second, dow := BitVec.ofNat 8 dow }
    else none
  | _ => none

/-- Bytes of a BLK operand: each number below 256. -/
def asmBytes (ns : List Nat) : Option (List Byte) :=
  if ns.all (· < 256) then some (ns.map (BitVec.ofNat 8)) else none

/-- The next operand and what follows it (R96). -/
def asmOperand : List AsmToken → Option (AsmOperand × List AsmToken)
  | .word w :: .mark c :: rest =>
    if w = ['d', 't'] ∧ c = '(' then
      match asmList ')' rest with
      | some (ws, rest') =>
        ((ws.mapM asmDecimal).bind asmDateTime).map (fun v => (.dt v, rest'))
      | none => none
    else if w = ['b', 'l', 'k'] ∧ c = asmOpenBrace then
      match asmList asmCloseBrace rest with
      | some (ws, rest') => ((ws.mapM asmPrefixed).bind asmBytes).map (fun b => (.blk b, rest'))
      | none => none
    else some (.arg w, .mark c :: rest)
  | [.word w] => some (.arg w, [])
  | _ => none

/-- Operands separated by commas, at most `fuel` of them (a line has at most four, R96, R97). -/
def asmOperands : Nat → List AsmToken → Option (List AsmOperand)
  | 0, _ => none
  | fuel + 1, ts =>
    match asmOperand ts with
    | none => none
    | some (o, []) => some [o]
    | some (o, .mark ',' :: rest) => (asmOperands fuel rest).map (o :: ·)
    | some _ => none

/-- The pseudo-instructions of R97: the base mnemonic and its operands. -/
def asmExpand (mnemonic : String) (ops : List AsmOperand) : Option (String × List AsmOperand) :=
  if mnemonic = "SET_ALARM" then
    match ops with
    | .arg ['1'] :: rest => some ("SET_AL1", rest)
    | .arg ['2'] :: rest => some ("SET_AL2", rest)
    | _ => none
  else if mnemonic = "IS_ALARM_SET" then
    match ops with
    | [.arg ['1']] => some ("IS_AL1_SET", [])
    | [.arg ['2']] => some ("IS_AL2_SET", [])
    | _ => none
  else some (mnemonic, ops)

/-- A 5-bit number as ARG (R96). -/
def asmArgNumber (w : List Char) : Option (BitVec 5) :=
  match asmPrefixed w with
  | some n => if n < 32 then some (BitVec.ofNat 5 n) else none
  | none => none

/-- ARG of an alarm command: a mode name of R85 or a number. -/
def asmModeArg (w : List Char) : Option (BitVec 5) :=
  if w = "OncePerSecond".toList then some (alarmModeTag .oncePerSecond)
  else if w = "SecondsMatch".toList then some (alarmModeTag .secondsMatch)
  else if w = "MinutesSeconds".toList then some (alarmModeTag .minutesSeconds)
  else if w = "HoursMinutesSeconds".toList then some (alarmModeTag .hoursMinutesSeconds)
  else if w = "DayOfMonthMatch".toList then some (alarmModeTag .dayOfMonthMatch)
  else if w = "DayOfWeekMatch".toList then some (alarmModeTag .dayOfWeekMatch)
  else asmArgNumber w

/-- ARG of SET_INT_PIN: a pin-mode name of R86 or a number. -/
def asmPinArg (w : List Char) : Option (BitVec 5) :=
  if w = "InterruptOnAlarm".toList then some (pinModeValue .interruptOnAlarm)
  else if w = "SquareWave1Hz".toList then some (pinModeValue .squareWave1Hz)
  else if w = "SquareWave1024Hz".toList then some (pinModeValue .squareWave1024Hz)
  else if w = "SquareWave4096Hz".toList then some (pinModeValue .squareWave4096Hz)
  else if w = "SquareWave8192Hz".toList then some (pinModeValue .squareWave8192Hz)
  else asmArgNumber w

/-- A request for a command, with its DT and BLK operands; a command ignores the ports it does not take
(R91), so they carry what they carry at construction. -/
def commandRequest (i : Instr) (dt : DateTimeValue) (blk : List Byte) : Request :=
  { word := commandWord i.opcode i.arg, dt := dt, blk := blk }

/-- A command without operands (R92). DESIGN CHOICE, log entry 26: where the ARG column of R92 is 0, a line with
an explicit ARG, 0 among them, is not assembled; so for `asmWithBlk` and `asmWithDt`. -/
def asmPlain (i : Instr) : List AsmOperand → Option Request
  | [] => some (commandRequest i State.resetDt [])
  | _ => none

/-- A command with a BLK operand and no ARG (R92). -/
def asmWithBlk (i : Instr) : List AsmOperand → Option Request
  | [.blk b] => some (commandRequest i State.resetDt b)
  | _ => none

/-- A command with a DT operand and no ARG (R92). -/
def asmWithDt (i : Instr) : List AsmOperand → Option Request
  | [.dt v] => some (commandRequest i v [])
  | _ => none

/-- A command with a mode tag and a DT operand (R92). -/
def asmWithMode (i : BitVec 5 → Instr) : List AsmOperand → Option Request
  | [.arg w, .dt v] => (asmModeArg w).map (fun m => commandRequest (i m) v [])
  | _ => none

/-- SET_INT_PIN and its pin mode (R92). -/
def asmWithPin : List AsmOperand → Option Request
  | [.arg w] => (asmPinArg w).map (fun p => commandRequest (.setIntPin p) State.resetDt [])
  | _ => none

/-- A base mnemonic with its operands (R92, R96). -/
def asmCommand (mnemonic : String) (ops : List AsmOperand) : Option Request :=
  if mnemonic = "DEC_DT" then asmWithBlk .decDt ops
  else if mnemonic = "DEC_TEMP" then asmWithBlk .decTemp ops
  else if mnemonic = "ENC_DT" then asmWithDt .encDt ops
  else if mnemonic = "ENC_AL1" then asmWithMode .encAl1 ops
  else if mnemonic = "ENC_AL2" then asmWithMode .encAl2 ops
  else if mnemonic = "GET_DT" then asmPlain .getDt ops
  else if mnemonic = "SET_DT" then asmWithDt .setDt ops
  else if mnemonic = "SET_AL1" then asmWithMode .setAl1 ops
  else if mnemonic = "SET_AL2" then asmWithMode .setAl2 ops
  else if mnemonic = "GET_TEMP" then asmPlain .getTemp ops
  else if mnemonic = "IS_RUNNING" then asmPlain .isRunning ops
  else if mnemonic = "ENABLE_OSC" then asmPlain .enableOsc ops
  else if mnemonic = "IS_AL1_SET" then asmPlain .isAl1Set ops
  else if mnemonic = "IS_AL2_SET" then asmPlain .isAl2Set ops
  else if mnemonic = "SET_INT_PIN" then asmWithPin ops
  else if mnemonic = "DUMP_REGS" then asmPlain .dumpRegs ops
  else none

/-- Assemble one line (R96), pseudo-instructions expanded (R97). -/
def assemble (line : String) : Option Request :=
  match asmTokens line.toList [] with
  | .word w :: rest =>
    match (if rest.isEmpty then some [] else asmOperands 4 rest) with
    | none => none
    | some ops =>
      match asmExpand (String.ofList w) ops with
      | none => none
      | some (mnemonic, ops') => asmCommand mnemonic ops'
  | _ => none

end Sys2Proof.Machine
end

