-- ==== Sys2Proof/Safety.lean ====
section
/-! DEFINITION. What counts as a safe state, and the terms the statements use: the invariant of the machine,
the caller's view of a result (spec/60_exceptions.md R191), the transactions each command may issue
(spec/20_memory.md R50), and the states in which a transaction leaves a command. -/

namespace Sys2Proof.Machine

/-- The locals a command holds before its second transaction; none for a command with at most one (R146
to R149). -/
def secondLocals : Instr → Option Locals
  | .isRunning => some { flag := some false }
  | .enableOsc => some Locals.empty
  | .isAl1Set => some { flag := some true }
  | .isAl2Set => some { flag := some true }
  | .decDt | .decTemp | .encDt | .encAl1 _ | .encAl2 _ | .getDt | .setDt | .setAl1 _ | .setAl2 _
  | .getTemp | .setIntPin _ | .dumpRegs
  | .readBlock | .writeBlock | .testBit | .changeBit | .writeMasked => none

/-- A legal sequencer state: Idle, a command just accepted, or one before its second transaction (R22). -/
def seqOk : Seq → Bool
  | .idle => true
  | .busy i k l =>
    i.isCommand && ((k == 0 && l == Locals.empty) || (k == 1 && secondLocals i == some l))

/-- A legal result: Success has cause NONE, an Error has a cause and no value (R23, R190). -/
def resultOk : Option Result → Bool
  | none => true
  | some r =>
    match r.status with
    | .success => r.cause == .none
    | .error => r.cause != .none && r.value.isNone

/-- A legal trace: every transaction lies in the register file with a legal mask, and a failed one
returned nothing (R51, R170, R173, R174, R176). -/
def traceOk (tr : List TraceEntry) : Bool :=
  tr.all fun e => e.transaction.refusal.isNone && (e.outcome == .ok || e.data.isNone)

/-- The invariant of the machine. -/
abbrev Inv (s : State) : Prop :=
  Memory.wf s.regs = true ∧ seqOk s.seq = true ∧ resultOk s.result = true ∧ traceOk s.trace = true

/-- What the caller sees of a result: the two-valued status and the value, not the cause (R191). -/
def visible (r : Result) : Status × Option Value := (r.status, r.value)

/-- The transactions a command may issue, by kind and addresses (R50). -/
def mayIssue : Instr → Transaction → Bool
  | .getDt, .readBlock a n => a == 0x00 && n == 7
  | .setDt, .writeBlock a v => a == 0x00 && v.length == 7
  | .setAl1 _, .writeBlock a v => a == 0x07 && v.length == 4
  | .setAl2 _, .writeBlock a v => a == 0x0B && v.length == 3
  | .getTemp, .readBlock a n => a == 0x11 && n == 2
  | .isRunning, .testBit a _ => a == 0x0F || a == 0x0E
  | .enableOsc, .changeBit a _ _ => a == 0x0E || a == 0x0F
  | .isAl1Set, .testBit a _ => a == 0x0F
  | .isAl1Set, .changeBit a _ _ => a == 0x0F
  | .isAl2Set, .testBit a _ => a == 0x0F
  | .isAl2Set, .changeBit a _ _ => a == 0x0F
  | .setIntPin _, .writeMasked a _ _ => a == 0x0E
  | .dumpRegs, .readBlock a n => a == 0x00 && n == 19
  | _, _ => false

/-- The bus row a command issues at a step with the locals it keeps there, from the state `s` (R50, R141 to
R151): the five codec commands issue none, nor does a command with a refused operand (R140.1), nor SET_DT with
a year out of range (R142). -/
def rowIssued (s : State) : Instr → Nat → Locals → Option Instr
  | .getDt, 0, ⟨none⟩ => some .readBlock
  | .setDt, 0, ⟨none⟩ =>
    if dateTimeValid s.dtPort && s.yearBase ≤ s.dtPort.year.toNat && s.dtPort.year.toNat < s.yearBase + 200
    then some .writeBlock else none
  | .setAl1 _, 0, ⟨none⟩ => if dateTimeValid s.dtPort then some .writeBlock else none
  | .setAl2 _, 0, ⟨none⟩ => if dateTimeValid s.dtPort then some .writeBlock else none
  | .getTemp, 0, ⟨none⟩ => some .readBlock
  | .isRunning, 0, ⟨none⟩ => some .testBit
  | .isRunning, 1, ⟨some false⟩ => some .testBit
  | .enableOsc, 0, ⟨none⟩ => some .changeBit
  | .enableOsc, 1, ⟨none⟩ => some .changeBit
  | .isAl1Set, 0, ⟨none⟩ => some .testBit
  | .isAl1Set, 1, ⟨some true⟩ => some .changeBit
  | .isAl2Set, 0, ⟨none⟩ => some .testBit
  | .isAl2Set, 1, ⟨some true⟩ => some .changeBit
  | .setIntPin p, 0, ⟨none⟩ => if Config.intPinModes.contains p then some .writeMasked else none
  | .dumpRegs, 0, ⟨none⟩ => some .readBlock
  | _, _, _ => none

/-- The state in which a command's move takes place: the command is in hand, just accepted if the block was
Idle (R22). -/
def State.inHand (s : State) (i : Instr) : State :=
  match s.seq with
  | .idle => s.accept i
  | .busy _ _ _ => s

/-- `s` after one transaction and nothing else: the register file it left, its trace entry, its draw used
up. Every other field is that of `s`. -/
def State.afterBus (s : State) (m : Memory) (e : TraceEntry) : State :=
  { s with
    regs := m
    trace := s.trace ++ [e]
    draws := s.draws.tail
    drawCount := s.drawCount + 1 }

/-- `s` after one transaction that ended a command with result `r`: Idle, the result on the port. -/
def State.endedBy (s : State) (m : Memory) (e : TraceEntry) (r : Result) : State :=
  { s.afterBus m e with seq := .idle, result := some r }

/-- `s` after the first transaction of command `i`, which goes on with locals `l`. -/
def State.goesOn (s : State) (m : Memory) (e : TraceEntry) (i : Instr) (l : Locals) : State :=
  { s.afterBus m e with seq := .busy i 1 l }

/-- `Error(BUS_FAIL)`. -/
def busFailed : Result := { status := .error, cause := .busFail, value := none }

/-- The result with which a command ends once the TEST_BIT of its step returned `b`; none where the command
goes on (R146, R148, R149). -/
def testEnds : Instr → Nat → Bool → Option Result
  | .isRunning, 0, true => some (succeeded (some (.bool false)))
  | .isRunning, 1, b => some (succeeded (some (.bool (!b))))
  | .isAl1Set, 0, false => some (succeeded (some (.bool false)))
  | .isAl2Set, 0, false => some (succeeded (some (.bool false)))
  | _, _, _ => none

/-- The result with which a command ends once the CHANGE_BIT of its step was ok or failed; none where the
command goes on (R147 to R149, R192). -/
def clearEnds : Instr → Nat → Bool → Option Result
  | .enableOsc, _, false => some busFailed
  | .enableOsc, 1, true => some (succeeded none)
  | .isAl1Set, _, _ => some (succeeded (some (.bool true)))
  | .isAl2Set, _, _ => some (succeeded (some (.bool true)))
  | _, _, _ => none

/-- `s` after one transaction of command `i`, which ended it, or which it goes on from with locals `l`. -/
def State.answered (s : State) (m : Memory) (e : TraceEntry) (i : Instr) (l : Locals) :
    Option Result → State
  | some r => s.endedBy m e r
  | none => s.goesOn m e i l

/-- `Error(YEAR_RANGE)`. -/
def yearRejected : Result := { status := .error, cause := .yearRange, value := none }

/-- The number whose two nibbles are the decimal digits of `v` (R70, R120). -/
def bcdNumber (v : Nat) : Nat := 16 * (v / 10) + v % 10

/-- The number two nibbles make, read as decimal digits without a check (R100). -/
def digitsNumber (b : Nat) : Nat := 10 * (b / 16) + b % 16

/-- The value of a mode bit's place, 128 where the bit is set (R128). -/
def ignoreWeight (m : BitVec 5) (bit : Nat) : Nat := if m.getLsbD bit then 128 else 0

/-- The day/date byte as a number (R129). -/
def dayNumber (m : BitVec 5) (dt : DateTimeValue) : Nat :=
  (if m.getLsbD 4 then bcdNumber (dt.dow.toNat + 1) + Config.dydtMask.toNat else bcdNumber dt.dom.toNat)
    + ignoreWeight m 3

end Sys2Proof.Machine
end

