-- ==== Sys2Proof/Certificates/Slice0/Obligations.lean ====
section
/-! DEFINITION. The statements about the RTC register codec, from the numbered rules of spec/. -/

open Sys2Proof Sys2Proof.Machine

/-! ### Encoding -/

/-- R90, R92, R95: words written out from the spec's encoding decode to the instructions they stand for. -/
def Obligations.WrittenOutWordsDecode : Prop :=
  decode (.command 0b0000000000000001) = .ok .decDt ∧
  decode (.command 0b0000110000000100) = .ok (.encAl1 0b01100) ∧
  decode (.command 0b0001111100010010) = .ok (.setAl1 0b11111) ∧
  decode (.command 0b0000000000100001) = .ok .enableOsc ∧
  decode (.command 0b0001100000100100) = .ok (.setIntPin 0b11000) ∧
  decode (.bus 0b100) = .ok .writeMasked ∧
  decode (.bus 0b101) = .error .unassignedKind

/-- R90, R92, R95: decoding the word of a well-formed instruction gives the instruction back, with every
operand. -/
def Obligations.DecodeInvertsEncode : Prop :=
  ∀ i : Instr, i.wellFormed = true → decode (encode i) = .ok i

/-- R92, R93, R95: every word the decoder accepts is the word of a well-formed instruction, the one it
decodes to. -/
def Obligations.EncodeInvertsDecode : Prop :=
  ∀ (w : PortWord) (i : Instr), decode w = .ok i → i.wellFormed = true ∧ encode i = w

/-- R93: a word with an unassigned OP, RSV not 0, ARG not 0 where it must be, a pin mode outside
INT_PIN_MODES, or a BLK port of the wrong length for DEC_DT or DEC_TEMP is refused; every other word
decodes. -/
def Obligations.ReservedCommandWordsRefused : Prop :=
  ∀ (s : State) (r : Request) (rest : List Request) (w : BitVec 16),
    s.seq = .idle → s.requests = r :: rest → r.word = w →
    let op := w.toNat % 256
    let arg := w.toNat / 256 % 32
    let rsv := w.toNat / 8192
    let reserved : Prop :=
      op ∉ [0x01, 0x02, 0x03, 0x04, 0x05, 0x10, 0x11, 0x12, 0x13, 0x14, 0x20, 0x21, 0x22, 0x23,
        0x24, 0x30] ∨
      rsv ≠ 0 ∨
      (op ∈ [0x01, 0x02, 0x03, 0x10, 0x11, 0x14, 0x20, 0x21, 0x22, 0x23, 0x30] ∧ arg ≠ 0) ∨
      (op = 0x24 ∧ arg ∉ [0x07, 0x00, 0x08, 0x10, 0x18])
    ((reserved ∨ (op = 0x01 ∧ r.blk.length ≠ 7) ∨ (op = 0x02 ∧ r.blk.length ≠ 2)) →
      ∃ reason, step s = .refused reason) ∧
    (¬reserved → ∃ i, decode (.command w) = .ok i)

/-- R22, R90: while Idle, the step is exec of the decoded request, with the request taken from the command
port and its operands on the operand ports; while Busy it is exec of the command in hand; while Idle with
no request it changes nothing (the model's choice, log entry 7). -/
def Obligations.StepRunsDecodedInstruction : Prop :=
  (∀ (s : State) (r : Request) (rest : List Request) (i : Instr),
    s.seq = .idle → s.requests = r :: rest → decode (.command r.word) = .ok i →
    step s = exec i
      { s with requests := rest, dtPort := r.dt, blkPort := r.blk }) ∧
  (∀ (s : State) (i : Instr) (k : Nat) (l : Locals),
    s.seq = .busy i k l → step s = exec i s) ∧
  (∀ s : State, s.seq = .idle → s.requests = [] → step s = .next s)

/-- R85: each named alarm mode and the fields that must match for alarm 1 and for alarm 2. The six values are ones
the spec marks as its own (decision D5; log entry 14). -/
def Obligations.NamedAlarmModesMatchTheirFields : Prop :=
  [AlarmMode.oncePerSecond, .secondsMatch, .minutesSeconds, .hoursMinutesSeconds, .dayOfMonthMatch,
      .dayOfWeekMatch].map alarmModeTag =
    [0b01111, 0b01110, 0b01100, 0b01000, 0b00000, 0b10000] ∧
  [AlarmMode.oncePerSecond, .secondsMatch, .minutesSeconds, .hoursMinutesSeconds, .dayOfMonthMatch,
      .dayOfWeekMatch].map (fun a => alarm1FieldsMatched (alarmModeTag a)) =
    [[], [.second], [.minute, .second], [.hour, .minute, .second],
      [.dom, .hour, .minute, .second], [.dow, .hour, .minute, .second]] ∧
  [AlarmMode.oncePerSecond, .secondsMatch, .minutesSeconds, .hoursMinutesSeconds, .dayOfMonthMatch,
      .dayOfWeekMatch].map (fun a => alarm2FieldsMatched (alarmModeTag a)) =
    [[], [], [.minute], [.hour, .minute], [.dom, .hour, .minute], [.dow, .hour, .minute]]

/-- R97: the four pseudo-instructions and their expansions; R96: the word of its first example line. Both are the
spec's own (decision D18), and the lexing of a line is the model's choice (log entry 26). -/
def Obligations.PseudoInstructionsExpand : Prop :=
  (∀ ops, asmExpand "SET_ALARM" (.arg ['1'] :: ops) = some ("SET_AL1", ops)) ∧
  (∀ ops, asmExpand "SET_ALARM" (.arg ['2'] :: ops) = some ("SET_AL2", ops)) ∧
  asmExpand "IS_ALARM_SET" [.arg ['1']] = some ("IS_AL1_SET", []) ∧
  asmExpand "IS_ALARM_SET" [.arg ['2']] = some ("IS_AL2_SET", []) ∧
  (assemble "SET_AL1 MinutesSeconds, dt(2024,3,15,13,45,30,4)").map Request.word =
    some 0x0C12

/-! ### The codec -/

/-- R100 to R103: DEC_DT decodes each field from its masked byte, without a check, the year relative to
YEAR_BASE with the century flag worth 100, the day of week one less modulo 8; it always succeeds and
changes nothing but the result. -/
def Obligations.DecDtDecodesBlock : Prop :=
  decode (.command 0x0001) = .ok .decDt ∧
  ∀ (s : State) (b0 b1 b2 b3 b4 b5 b6 : Byte),
    s.seq = .idle → s.blkPort = [b0, b1, b2, b3, b4, b5, b6] →
    ∃ dt : DateTimeValue,
      exec .decDt s = .next { s with result := some (succeeded (some (.dateTime dt))) } ∧
      dt.second.toNat = digitsNumber (b0.toNat % 128) ∧ dt.second.toNat ≤ 85 ∧
      dt.minute.toNat = digitsNumber (b1.toNat % 128) ∧ dt.minute.toNat ≤ 85 ∧
      dt.hour.toNat = digitsNumber (b2.toNat % 64) ∧ dt.hour.toNat ≤ 45 ∧
      dt.dow.toNat = (b3.toNat % 8 + 7) % 8 ∧
      dt.dom.toNat = digitsNumber (b4.toNat % 64) ∧ dt.dom.toNat ≤ 45 ∧
      dt.month.toNat = digitsNumber (b5.toNat % 32) ∧ dt.month.toNat ≤ 25 ∧
      dt.year.toNat = s.yearBase + digitsNumber b6.toNat + 100 * (b5.toNat / 128) ∧
      dt.year.toNat ≤ s.yearBase + 265

/-- R105, R106: DEC_TEMP adds the quarter-degree fraction to four times the signed whole degrees where they
are not negative and subtracts it where they are; the result lies in [−515, 511], takes every value there
but −1, −2 and −3, and nothing but the result changes. -/
def Obligations.DecTempDecodesBlock : Prop :=
  decode (.command 0x0002) = .ok .decTemp ∧
  (∀ (s : State) (b0 b1 : Byte), s.seq = .idle → s.blkPort = [b0, b1] →
    ∃ q : Int,
      exec .decTemp s = .next { s with result := some (succeeded (some (.temperature q))) } ∧
      q = (if b0.toNat < 128 then 4 * (b0.toNat : Int) + (b1.toNat / 64 : Nat)
           else 4 * ((b0.toNat : Int) - 256) - (b1.toNat / 64 : Nat)) ∧
      -515 ≤ q ∧ q ≤ 511 ∧ q ≠ -1 ∧ q ≠ -2 ∧ q ≠ -3) ∧
  (∀ q : Int, -515 ≤ q → q ≤ 511 → q ≠ -1 → q ≠ -2 → q ≠ -3 →
    ∃ b0 b1 : Byte, ∀ s : State, s.seq = .idle → s.blkPort = [b0, b1] →
      exec .decTemp s = .next { s with result := some (succeeded (some (.temperature q))) })

/-- R122 to R124: for an admitted DT, ENC_DT answers the seven bytes of the date-time block, with the
century flag and the year byte relative to YEAR_BASE, or Error(YEAR_RANGE) outside
[YEAR_BASE, YEAR_BASE+200); nothing but the result changes. -/
def Obligations.EncDtEncodesOrRejectsYear : Prop :=
  decode (.command 0x0003) = .ok .encDt ∧
  ∀ s : State, s.seq = .idle → dateTimeValid s.dtPort = true →
    let dt := s.dtPort
    let y := dt.year.toNat
    ((s.yearBase ≤ y ∧ y < s.yearBase + 200) →
      let c := if s.yearBase + 100 ≤ y then 1 else 0
      exec .encDt s = .next { s with result := some (succeeded (some (.bytes
        [ BitVec.ofNat 8 (bcdNumber dt.second.toNat)
        , BitVec.ofNat 8 (bcdNumber dt.minute.toNat)
        , BitVec.ofNat 8 (bcdNumber dt.hour.toNat)
        , BitVec.ofNat 8 (dt.dow.toNat + 1)
        , BitVec.ofNat 8 (bcdNumber dt.dom.toNat)
        , BitVec.ofNat 8 (bcdNumber dt.month.toNat + 128 * c)
        , BitVec.ofNat 8 (bcdNumber (y - s.yearBase - 100 * c)) ]))) }) ∧
    ((y < s.yearBase ∨ s.yearBase + 200 ≤ y) →
      exec .encDt s = .next { s with result := some yearRejected })

/-- R121: ENC_DT, ENC_AL1, ENC_AL2, SET_DT, SET_AL1 and SET_AL2 refuse a DT operand with a month outside
1–12, a dom outside 1–31, an hour above 23, a minute or second above 59 or a dow above 6, and no other
one. -/
def Obligations.EncodersRefuseInvalidDateTime : Prop :=
  ∀ (s : State) (i : Instr) (m : BitVec 5),
    s.seq = .idle → i ∈ [.encDt, .encAl1 m, .encAl2 m, .setDt, .setAl1 m, .setAl2 m] →
    let dt := s.dtPort
    let admitted : Prop :=
      1 ≤ dt.month.toNat ∧ dt.month.toNat ≤ 12 ∧ 1 ≤ dt.dom.toNat ∧ dt.dom.toNat ≤ 31 ∧
        dt.hour.toNat ≤ 23 ∧ dt.minute.toNat ≤ 59 ∧ dt.second.toNat ≤ 59 ∧ dt.dow.toNat ≤ 6
    (¬admitted → exec i s = .refused .dtInvariant) ∧
    (admitted → ∃ t, exec i s = .next t)

/-- R125: the day-of-week byte ENC_DT answers is dow+1, and DEC_DT of the block ENC_DT answers is the
date-time value encoded, for every admitted value and every YEAR_BASE. -/
def Obligations.EncodedDateTimeDecodesBack : Prop :=
  ∀ s : State, s.seq = .idle → dateTimeValid s.dtPort = true →
    s.yearBase ≤ s.dtPort.year.toNat → s.dtPort.year.toNat < s.yearBase + 200 →
    ∃ (b : List Byte) (t u : State),
      exec .encDt s = .next t ∧ t.result = some (succeeded (some (.bytes b))) ∧
      (b[3]?).map BitVec.toNat = some (s.dtPort.dow.toNat + 1) ∧
      exec .decDt { t with blkPort := b } = .next u ∧
      u.result = some (succeeded (some (.dateTime s.dtPort)))

/-- R126, R128, R129: for every tag and admitted DT, ENC_AL1 answers seconds, minutes, hours and day bytes,
each with its ignore bit; nothing but the result changes. -/
def Obligations.EncAl1EncodesAlarm : Prop :=
  ∀ m : BitVec 5,
    decode (.command (BitVec.ofNat 16 (256 * m.toNat + 0x04))) = .ok (.encAl1 m) ∧
    ∀ s : State, s.seq = .idle → dateTimeValid s.dtPort = true →
      exec (.encAl1 m) s = .next { s with result := some (succeeded (some (.bytes
        [ BitVec.ofNat 8 (bcdNumber s.dtPort.second.toNat + ignoreWeight m 0)
        , BitVec.ofNat 8 (bcdNumber s.dtPort.minute.toNat + ignoreWeight m 1)
        , BitVec.ofNat 8 (bcdNumber s.dtPort.hour.toNat + ignoreWeight m 2)
        , BitVec.ofNat 8 (dayNumber m s.dtPort) ]))) }

/-- R127: for every tag and admitted DT, ENC_AL2 answers minutes, hours and day bytes; nothing but the
result changes. -/
def Obligations.EncAl2EncodesAlarm : Prop :=
  ∀ m : BitVec 5,
    decode (.command (BitVec.ofNat 16 (256 * m.toNat + 0x05))) = .ok (.encAl2 m) ∧
    ∀ s : State, s.seq = .idle → dateTimeValid s.dtPort = true →
      exec (.encAl2 m) s = .next { s with result := some (succeeded (some (.bytes
        [ BitVec.ofNat 8 (bcdNumber s.dtPort.minute.toNat + ignoreWeight m 1)
        , BitVec.ofNat 8 (bcdNumber s.dtPort.hour.toNat + ignoreWeight m 2)
        , BitVec.ofNat 8 (dayNumber m s.dtPort) ]))) }

/-- R127, corner cases: m[0] and the second are not read for alarm 2, nor the year and the month: two Idle
states whose admitted DT operands agree on minute, hour, dom and dow, with tags that agree on bits 4:1,
give the same ENC_AL2 result. -/
def Obligations.Alarm2ReadsNoSeconds : Prop :=
  ∀ (s s' t : State) (m m' : BitVec 5),
    s.seq = .idle → s'.seq = .idle →
    dateTimeValid s.dtPort = true → dateTimeValid s'.dtPort = true →
    s.dtPort.minute = s'.dtPort.minute → s.dtPort.hour = s'.dtPort.hour →
    s.dtPort.dom = s'.dtPort.dom → s.dtPort.dow = s'.dtPort.dow →
    m.toNat / 2 = m'.toNat / 2 →
    exec (.encAl2 m) s = .next t →
    ∃ t', exec (.encAl2 m') s' = .next t' ∧ t'.result = t.result

/-! ### The block transfers -/

/-- R141: GET_DT reads the seven date-time bytes in one transaction and answers what DEC_DT decodes from
them; a failed read is Error(BUS_FAIL). The block changes no register. -/
def Obligations.GetDtReadsDateTime : Prop :=
  decode (.command 0x0010) = .ok .getDt ∧
  ∀ s : State, s.seq = .idle →
    let b := (List.range 7).map (fun i => Memory.read s.found i)
    (s.draw.ok = true → exec .getDt s = .next (s.endedBy s.found
      ⟨.readBlock 0x00 7, .ok, some (.bytes b)⟩
      (succeeded (some (.dateTime (decodeDateTime s.yearBase b)))))) ∧
    (s.draw.ok = false → exec .getDt s = .next (s.endedBy s.found
      ⟨.readBlock 0x00 7, .fail, none⟩ busFailed))

/-- R142: SET_DT of an admitted DT with a year out of range is Error(YEAR_RANGE) with no transaction; with a
year in range it writes the block of ENC_DT to 0x00..0x06 in one transaction, and nothing else; a failed
write is Error(BUS_FAIL) and leaves any value in those seven registers and every other one alone. -/
def Obligations.SetDtWritesDateTime : Prop :=
  decode (.command 0x0011) = .ok .setDt ∧
  ∀ s : State, s.seq = .idle → dateTimeValid s.dtPort = true →
    let y := s.dtPort.year.toNat
    ((y < s.yearBase ∨ s.yearBase + 200 ≤ y) →
      exec .setDt s = .next { s with result := some yearRejected }) ∧
    ((s.yearBase ≤ y ∧ y < s.yearBase + 200) →
      ∃ (b : List Byte) (m : Memory), encodeDateTime s.yearBase s.dtPort = .ok b ∧ b.length = 7 ∧
        (s.draw.ok = true →
          exec .setDt s = .next (s.endedBy m ⟨.writeBlock 0x00 b, .ok, none⟩ (succeeded none)) ∧
          ∀ a, Memory.read m a =
            if a < 7 then b.getD a 0 else Memory.read s.found a) ∧
        (s.draw.ok = false →
          exec .setDt s = .next (s.endedBy m ⟨.writeBlock 0x00 b, .fail, none⟩ busFailed) ∧
          ∀ a, Memory.read m a =
            if a < 7 then s.draw.left.getD a (Memory.read s.found a) else Memory.read s.found a))

/-- R143: SET_AL1 of an admitted DT writes the block of ENC_AL1 to 0x07..0x0A in one transaction, and
nothing else; a failed write is Error(BUS_FAIL) and leaves any value in those four registers only. -/
def Obligations.SetAl1WritesAlarm1 : Prop :=
  ∀ m : BitVec 5,
    decode (.command (BitVec.ofNat 16 (256 * m.toNat + 0x12))) = .ok (.setAl1 m) ∧
    ∀ s : State, s.seq = .idle → dateTimeValid s.dtPort = true →
      let b := encodeAlarm1 m s.dtPort
      ∃ r : Memory,
        (s.draw.ok = true →
          exec (.setAl1 m) s = .next (s.endedBy r ⟨.writeBlock 0x07 b, .ok, none⟩
            (succeeded none)) ∧
          ∀ a, Memory.read r a =
            if 7 ≤ a ∧ a < 11 then b.getD (a - 7) 0 else Memory.read s.found a) ∧
        (s.draw.ok = false →
          exec (.setAl1 m) s = .next (s.endedBy r ⟨.writeBlock 0x07 b, .fail, none⟩ busFailed) ∧
          ∀ a, Memory.read r a =
            if 7 ≤ a ∧ a < 11 then s.draw.left.getD (a - 7) (Memory.read s.found a)
            else Memory.read s.found a)

/-- R144: SET_AL2 of an admitted DT writes the block of ENC_AL2 to 0x0B..0x0D in one transaction, and
nothing else; a failed write is Error(BUS_FAIL) and leaves any value in those three registers only. -/
def Obligations.SetAl2WritesAlarm2 : Prop :=
  ∀ m : BitVec 5,
    decode (.command (BitVec.ofNat 16 (256 * m.toNat + 0x13))) = .ok (.setAl2 m) ∧
    ∀ s : State, s.seq = .idle → dateTimeValid s.dtPort = true →
      let b := encodeAlarm2 m s.dtPort
      ∃ r : Memory,
        (s.draw.ok = true →
          exec (.setAl2 m) s = .next (s.endedBy r ⟨.writeBlock 0x0B b, .ok, none⟩
            (succeeded none)) ∧
          ∀ a, Memory.read r a =
            if 11 ≤ a ∧ a < 14 then b.getD (a - 11) 0 else Memory.read s.found a) ∧
        (s.draw.ok = false →
          exec (.setAl2 m) s = .next (s.endedBy r ⟨.writeBlock 0x0B b, .fail, none⟩ busFailed) ∧
          ∀ a, Memory.read r a =
            if 11 ≤ a ∧ a < 14 then s.draw.left.getD (a - 11) (Memory.read s.found a)
            else Memory.read s.found a)

/-- R142 to R144 against R122, R126, R127: the block SET_DT, SET_AL1 or SET_AL2 puts on the bus is the block
ENC_DT, ENC_AL1 or ENC_AL2 answers for the same operands, in every Idle state in which the encoder
succeeds. -/
def Obligations.SetCommandsWriteEncodedBlock : Prop :=
  ∀ (s : State) (m : BitVec 5) (i j : Instr), s.seq = .idle → dateTimeValid s.dtPort = true →
    s.yearBase ≤ s.dtPort.year.toNat → s.dtPort.year.toNat < s.yearBase + 200 →
    (i, j) ∈ [(Instr.encDt, Instr.setDt), (.encAl1 m, .setAl1 m), (.encAl2 m, .setAl2 m)] →
    ∃ (b : List Byte) (a : RegAddr) (t u : State) (e : TraceEntry),
      exec i s = .next t ∧ t.result = some (succeeded (some (.bytes b))) ∧
      exec j s = .next u ∧ u.trace = s.trace ++ [e] ∧ e.transaction = .writeBlock a b

/-- R141, R145 against R101, R105: the result of a successful GET_DT or GET_TEMP is the one DEC_DT or
DEC_TEMP answers for the bytes the transaction returned. -/
def Obligations.GetCommandsAnswerDecodedBlock : Prop :=
  ∀ (s : State) (i j : Instr), s.seq = .idle → s.draw.ok = true →
    (i, j) ∈ [(Instr.getDt, Instr.decDt), (.getTemp, .decTemp)] →
    ∃ (b : List Byte) (a : RegAddr) (n : Nat) (t u : State),
      exec i s = .next t ∧ t.trace = s.trace ++ [⟨.readBlock a n, .ok, some (.bytes b)⟩] ∧
      exec j { s with blkPort := b } = .next u ∧ u.result = t.result

/-- R145: GET_TEMP reads 0x11 and 0x12 in one transaction and answers what DEC_TEMP decodes from them; a
failed read is Error(BUS_FAIL). The block changes no register. -/
def Obligations.GetTempReadsTemperature : Prop :=
  decode (.command 0x0014) = .ok .getTemp ∧
  ∀ s : State, s.seq = .idle →
    let b := [Memory.read s.found 0x11, Memory.read s.found 0x12]
    (s.draw.ok = true → exec .getTemp s = .next (s.endedBy s.found
      ⟨.readBlock 0x11 2, .ok, some (.bytes b)⟩
      (succeeded (some (.temperature (decodeTemperature b)))))) ∧
    (s.draw.ok = false → exec .getTemp s = .next (s.endedBy s.found
      ⟨.readBlock 0x11 2, .fail, none⟩ busFailed))

/-- R151: DUMP_REGS reads all nineteen registers in one transaction and answers them unchanged; a failed
read is Error(BUS_FAIL). The block changes no register. -/
def Obligations.DumpRegsReadsAllRegisters : Prop :=
  decode (.command 0x0030) = .ok .dumpRegs ∧
  ∀ s : State, s.seq = .idle →
    let b := (List.range 19).map (fun i => Memory.read s.found i)
    (s.draw.ok = true → exec .dumpRegs s = .next (s.endedBy s.found
      ⟨.readBlock 0x00 19, .ok, some (.bytes b)⟩ (succeeded (some (.bytes b))))) ∧
    (s.draw.ok = false → exec .dumpRegs s = .next (s.endedBy s.found
      ⟨.readBlock 0x00 19, .fail, none⟩ busFailed))

/-- R142, R141 with R125: after SET_DT succeeded, GET_DT answers the date-time value set, whatever the chip
environment did outside 0x00..0x06 in between. -/
def Obligations.SetThenGetReturnsDateTime : Prop :=
  ∀ s : State, s.seq = .idle → dateTimeValid s.dtPort = true →
    s.yearBase ≤ s.dtPort.year.toNat → s.dtPort.year.toNat < s.yearBase + 200 →
    s.draw.ok = true →
    ∃ t, exec .setDt s = .next t ∧
      (t.draw.ok = true → (∀ a < 7, Memory.read t.found a = Memory.read t.regs a) →
        ∃ u, exec .getDt t = .next u ∧
          u.result = some (succeeded (some (.dateTime s.dtPort))))

/-! ### Flag operations and the pin mode -/

/-- R146: IS_RUNNING tests OSF; a set flag answers false with the control register unread, a clear one goes
on to test EOSC and answers whether it is clear; either failed test is Error(BUS_FAIL). The chip
environment may act between the two, and the block changes no register. -/
def Obligations.IsRunningTestsBothFlags : Prop :=
  decode (.command 0x0020) = .ok .isRunning ∧
  ∀ s : State, s.seq = .idle →
    let stopped := Memory.read s.found 0x0F &&& Config.osfMask != 0
    (s.draw.ok = false → exec .isRunning s = .next (s.endedBy s.found
      ⟨.testBit 0x0F Config.osfMask, .fail, none⟩ busFailed)) ∧
    (s.draw.ok = true → stopped = true → exec .isRunning s = .next (s.endedBy s.found
      ⟨.testBit 0x0F Config.osfMask, .ok, some (.bit true)⟩ (succeeded (some (.bool false))))) ∧
    (s.draw.ok = true → stopped = false →
      let t := s.goesOn s.found ⟨.testBit 0x0F Config.osfMask, .ok, some (.bit false)⟩ .isRunning
        { flag := some false }
      let disabled := Memory.read t.found 0x0E &&& Config.eoscMask != 0
      exec .isRunning s = .next t ∧
      (t.draw.ok = false → exec .isRunning t = .next (t.endedBy t.found
        ⟨.testBit 0x0E Config.eoscMask, .fail, none⟩ busFailed)) ∧
      (t.draw.ok = true → exec .isRunning t = .next (t.endedBy t.found
        ⟨.testBit 0x0E Config.eoscMask, .ok, some (.bit disabled)⟩
        (succeeded (some (.bool (!disabled)))))))

/-- R147, R213: ENABLE_OSC clears EOSC, then OSF, and changes no other bit; if the first clear fails the
second is not issued, if the second fails the first stays done; a failed clear leaves any value in its one
register only. -/
def Obligations.EnableOscClearsEoscThenOsf : Prop :=
  decode (.command 0x0021) = .ok .enableOsc ∧
  ∀ s : State, s.seq = .idle →
    (s.draw.ok = false → ∃ m : Memory,
      exec .enableOsc s = .next (s.endedBy m ⟨.changeBit 0x0E Config.eoscMask .clear, .fail, none⟩
        busFailed) ∧
      ∀ a, Memory.read m a =
        if a = 0x0E then s.draw.left.getD 0 (Memory.read s.found a) else Memory.read s.found a) ∧
    (s.draw.ok = true → ∃ (m : Memory) (t : State),
      exec .enableOsc s = .next t ∧
      t = s.goesOn m ⟨.changeBit 0x0E Config.eoscMask .clear, .ok, none⟩ .enableOsc Locals.empty ∧
      (∀ a, Memory.read m a =
        if a = 0x0E then Memory.read s.found a &&& ~~~Config.eoscMask else Memory.read s.found a) ∧
      ∃ n : Memory,
        (t.draw.ok = true →
          exec .enableOsc t = .next (t.endedBy n ⟨.changeBit 0x0F Config.osfMask .clear, .ok, none⟩
            (succeeded none)) ∧
          ∀ a, Memory.read n a =
            if a = 0x0F then Memory.read t.found a &&& ~~~Config.osfMask else Memory.read t.found a) ∧
        (t.draw.ok = false →
          exec .enableOsc t = .next (t.endedBy n ⟨.changeBit 0x0F Config.osfMask .clear, .fail, none⟩
            busFailed) ∧
          ∀ a, Memory.read n a =
            if a = 0x0F then t.draw.left.getD 0 (Memory.read t.found a)
            else Memory.read t.found a))

/-- R148, R192: IS_AL1_SET tests A1F; a failed test is Error(BUS_FAIL), a clear flag answers false with no
clear issued, a set flag is cleared by one more transaction and the answer is true whether or not that
clear succeeds. No other bit changes where the clear succeeds, no other register where it fails. -/
def Obligations.IsAl1SetReadsAndAcknowledges : Prop :=
  decode (.command 0x0022) = .ok .isAl1Set ∧
  ∀ s : State, s.seq = .idle →
    let fired := Memory.read s.found 0x0F &&& Config.a1fMask != 0
    (s.draw.ok = false → exec .isAl1Set s = .next (s.endedBy s.found
      ⟨.testBit 0x0F Config.a1fMask, .fail, none⟩ busFailed)) ∧
    (s.draw.ok = true → fired = false → exec .isAl1Set s = .next (s.endedBy s.found
      ⟨.testBit 0x0F Config.a1fMask, .ok, some (.bit false)⟩ (succeeded (some (.bool false))))) ∧
    (s.draw.ok = true → fired = true →
      let t := s.goesOn s.found ⟨.testBit 0x0F Config.a1fMask, .ok, some (.bit true)⟩ .isAl1Set
        { flag := some true }
      exec .isAl1Set s = .next t ∧
      ∃ n : Memory,
        (t.draw.ok = true →
          exec .isAl1Set t = .next (t.endedBy n ⟨.changeBit 0x0F Config.a1fMask .clear, .ok, none⟩
            (succeeded (some (.bool true)))) ∧
          ∀ a, Memory.read n a =
            if a = 0x0F then Memory.read t.found a &&& ~~~Config.a1fMask else Memory.read t.found a) ∧
        (t.draw.ok = false →
          exec .isAl1Set t = .next (t.endedBy n ⟨.changeBit 0x0F Config.a1fMask .clear, .fail, none⟩
            (succeeded (some (.bool true)))) ∧
          ∀ a, Memory.read n a =
            if a = 0x0F then t.draw.left.getD 0 (Memory.read t.found a)
            else Memory.read t.found a))

/-- R149, R192: IS_AL2_SET does the same with A2F and leaves A1F alone. -/
def Obligations.IsAl2SetReadsAndAcknowledges : Prop :=
  decode (.command 0x0023) = .ok .isAl2Set ∧
  ∀ s : State, s.seq = .idle →
    let fired := Memory.read s.found 0x0F &&& Config.a2fMask != 0
    (s.draw.ok = false → exec .isAl2Set s = .next (s.endedBy s.found
      ⟨.testBit 0x0F Config.a2fMask, .fail, none⟩ busFailed)) ∧
    (s.draw.ok = true → fired = false → exec .isAl2Set s = .next (s.endedBy s.found
      ⟨.testBit 0x0F Config.a2fMask, .ok, some (.bit false)⟩ (succeeded (some (.bool false))))) ∧
    (s.draw.ok = true → fired = true →
      let t := s.goesOn s.found ⟨.testBit 0x0F Config.a2fMask, .ok, some (.bit true)⟩ .isAl2Set
        { flag := some true }
      exec .isAl2Set s = .next t ∧
      ∃ n : Memory,
        (t.draw.ok = true →
          exec .isAl2Set t = .next (t.endedBy n ⟨.changeBit 0x0F Config.a2fMask .clear, .ok, none⟩
            (succeeded (some (.bool true)))) ∧
          ∀ a, Memory.read n a =
            if a = 0x0F then Memory.read t.found a &&& ~~~Config.a2fMask else Memory.read t.found a) ∧
        (t.draw.ok = false →
          exec .isAl2Set t = .next (t.endedBy n ⟨.changeBit 0x0F Config.a2fMask .clear, .fail, none⟩
            (succeeded (some (.bool true)))) ∧
          ∀ a, Memory.read n a =
            if a = 0x0F then t.draw.left.getD 0 (Memory.read t.found a)
            else Memory.read t.found a))

/-- R150: SET_INT_PIN with an admitted pin mode writes bits 4:0 of the control register in one masked write
and preserves bits 7:5 whatever they hold; a failed write is Error(BUS_FAIL) and leaves any value in that
register only; a value outside INT_PIN_MODES is refused. -/
def Obligations.SetIntPinWritesPinField : Prop :=
  ∀ p : BitVec 5,
    (p ∉ Config.intPinModes →
      ∀ s : State, s.seq = .idle → exec (.setIntPin p) s = .refused .pinMode) ∧
    (p ∈ Config.intPinModes →
      decode (.command (BitVec.ofNat 16 (256 * p.toNat + 0x24))) = .ok (.setIntPin p) ∧
      ∀ s : State, s.seq = .idle → ∃ m : Memory,
        (s.draw.ok = true →
          exec (.setIntPin p) s = .next (s.endedBy m
            ⟨.writeMasked 0x0E 0x1F (p.setWidth 8), .ok, none⟩ (succeeded none)) ∧
          ∀ a, Memory.read m a =
            if a = 0x0E then (Memory.read s.found a &&& 0xE0) ||| p.setWidth 8
            else Memory.read s.found a) ∧
        (s.draw.ok = false →
          exec (.setIntPin p) s = .next (s.endedBy m
            ⟨.writeMasked 0x0E 0x1F (p.setWidth 8), .fail, none⟩ busFailed) ∧
          ∀ a, Memory.read m a =
            if a = 0x0E then s.draw.left.getD 0 (Memory.read s.found a)
            else Memory.read s.found a))

/-! ### The bus transactions

A bus row of the opcode table is the transaction that the command in hand issues at its step, with the operands
on the bus-master port; the command goes on with its answer (R170). Which row that is, `rowIssued` says: none
where the command is refused or ends without a transaction (R194). That the operands may be any is the model's
choice (log entries 8 and 9). -/

/-- R171, R176 (log entries 8 and 9): READ_BLOCK inside 0x00..0x12 returns the n bytes from address a on, or
fails with no data; either way the register file is as it was found, and the command in hand ends: with the
value it decodes from the bytes (DUMP_REGS with the bytes themselves), or with Error(BUS_FAIL). -/
def Obligations.ReadBlockReturnsBytes : Prop :=
  decode (.bus 0) = .ok .readBlock ∧
  ∀ (s : State) (c : Instr) (n : Nat) (l : Locals),
    s.seq = .busy c n l → rowIssued s c n l = some .readBlock →
    (c = .getDt → s.busPort.len = 7) → (c = .getTemp → s.busPort.len = 2) →
    1 ≤ s.busPort.len → s.busPort.addr.toNat + s.busPort.len ≤ 0x13 →
    let x := Transaction.readBlock s.busPort.addr s.busPort.len
    (s.draw.ok = true → ∃ (b : List Byte) (v : Value),
      exec .readBlock s = .next (s.endedBy s.found ⟨x, .ok, some (.bytes b)⟩ (succeeded (some v))) ∧
      b.length = s.busPort.len ∧
      (∀ i < s.busPort.len, b[i]? = some (Memory.read s.found (s.busPort.addr.toNat + i))) ∧
      (c = .getDt → v = .dateTime (decodeDateTime s.yearBase b)) ∧
      (c = .getTemp → v = .temperature (decodeTemperature b)) ∧
      (c = .dumpRegs → v = .bytes b)) ∧
    (s.draw.ok = false →
      exec .readBlock s = .next (s.endedBy s.found ⟨x, .fail, none⟩ busFailed))

/-- R172, R176 (log entries 8 and 9): WRITE_BLOCK inside 0x00..0x12 stores byte v[i] at a+i and changes no
other register; a failed one leaves any value in the addressed registers and changes no other; the command in
hand ends with Success or with Error(BUS_FAIL). -/
def Obligations.WriteBlockStoresBytes : Prop :=
  decode (.bus 1) = .ok .writeBlock ∧
  ∀ (s : State) (c : Instr) (n : Nat) (l : Locals),
    s.seq = .busy c n l → rowIssued s c n l = some .writeBlock →
    s.busPort.addr.toNat + s.busPort.bytes.length ≤ 0x13 →
    let v := s.busPort.bytes
    let a0 := s.busPort.addr.toNat
    let x := Transaction.writeBlock s.busPort.addr v
    ∃ m : Memory,
      (s.draw.ok = true →
        exec .writeBlock s = .next (s.endedBy m ⟨x, .ok, none⟩ (succeeded none)) ∧
        ∀ a, Memory.read m a =
          if a0 ≤ a ∧ a < a0 + v.length then v.getD (a - a0) 0 else Memory.read s.found a) ∧
      (s.draw.ok = false →
        exec .writeBlock s = .next (s.endedBy m ⟨x, .fail, none⟩ busFailed) ∧
        ∀ a, Memory.read m a =
          if a0 ≤ a ∧ a < a0 + v.length then s.draw.left.getD (a - a0) (Memory.read s.found a)
          else Memory.read s.found a)

/-- R173, R176 (log entries 8 and 9): TEST_BIT of one bit k of a register returns whether it is set, or fails
with no data; either way the register file is as it was found. The command in hand ends with the result its
pseudocode gives for the bit, or goes on before its second transaction and keeps the bit (testEnds; R146, R148,
R149); a failed test ends it with Error(BUS_FAIL). -/
def Obligations.TestBitReturnsOneBit : Prop :=
  decode (.bus 2) = .ok .testBit ∧
  ∀ (s : State) (c : Instr) (n : Nat) (l : Locals) (k : Nat),
    s.seq = .busy c n l → rowIssued s c n l = some .testBit →
    s.busPort.addr.toNat < 0x13 → k < 8 → s.busPort.mask = BitVec.ofNat 8 (2 ^ k) →
    let x := Transaction.testBit s.busPort.addr s.busPort.mask
    let b := (Memory.read s.found s.busPort.addr.toNat).getLsbD k
    (s.draw.ok = true →
      exec .testBit s = .next (s.answered s.found ⟨x, .ok, some (.bit b)⟩ c { flag := some b }
        (testEnds c n b))) ∧
    (s.draw.ok = false →
      exec .testBit s = .next (s.endedBy s.found ⟨x, .fail, none⟩ busFailed))

/-- R174, R176 (log entries 8 and 9): CHANGE_BIT of one bit k sets or clears that bit of one register and keeps
its other seven and every other register; a failed one leaves any value in that register only. The command in
hand ends with the result its pseudocode gives, or goes on before its second transaction (clearEnds; R147 to
R149, R192). -/
def Obligations.ChangeBitChangesOneBit : Prop :=
  decode (.bus 3) = .ok .changeBit ∧
  ∀ (s : State) (c : Instr) (n : Nat) (l : Locals) (k : Nat),
    s.seq = .busy c n l → rowIssued s c n l = some .changeBit →
    s.busPort.addr.toNat < 0x13 → k < 8 → s.busPort.mask = BitVec.ofNat 8 (2 ^ k) →
    let a0 := s.busPort.addr.toNat
    let x := Transaction.changeBit s.busPort.addr s.busPort.mask s.busPort.dir
    ∃ m : Memory,
      (s.draw.ok = true →
        exec .changeBit s =
          .next (s.answered m ⟨x, .ok, none⟩ c Locals.empty (clearEnds c n true)) ∧
        (∀ j < 8, (Memory.read m a0).getLsbD j =
          if j = k then s.busPort.dir == .set else (Memory.read s.found a0).getLsbD j) ∧
        ∀ a, a ≠ a0 → Memory.read m a = Memory.read s.found a) ∧
      (s.draw.ok = false →
        exec .changeBit s =
          .next (s.answered m ⟨x, .fail, none⟩ c Locals.empty (clearEnds c n false)) ∧
        ∀ a, Memory.read m a =
          if a = a0 then s.draw.left.getD 0 (Memory.read s.found a) else Memory.read s.found a)

/-- R175, R176 (log entries 8 and 9): WRITE_MASKED writes the bits of one register the mask selects with those
of the value, keeps its other bits and every other register; a failed one leaves any value in that register
only; the command in hand ends with Success or with Error(BUS_FAIL). -/
def Obligations.WriteMaskedWritesSelectedBits : Prop :=
  decode (.bus 4) = .ok .writeMasked ∧
  ∀ (s : State) (c : Instr) (n : Nat) (l : Locals),
    s.seq = .busy c n l → rowIssued s c n l = some .writeMasked → s.busPort.addr.toNat < 0x13 →
    let a0 := s.busPort.addr.toNat
    let x := Transaction.writeMasked s.busPort.addr s.busPort.mask s.busPort.value
    ∃ m : Memory,
      (s.draw.ok = true →
        exec .writeMasked s = .next (s.endedBy m ⟨x, .ok, none⟩ (succeeded none)) ∧
        (∀ j < 8, (Memory.read m a0).getLsbD j =
          if s.busPort.mask.getLsbD j then s.busPort.value.getLsbD j
          else (Memory.read s.found a0).getLsbD j) ∧
        ∀ a, a ≠ a0 → Memory.read m a = Memory.read s.found a) ∧
      (s.draw.ok = false →
        exec .writeMasked s = .next (s.endedBy m ⟨x, .fail, none⟩ busFailed) ∧
        ∀ a, Memory.read m a =
          if a = a0 then s.draw.left.getD 0 (Memory.read s.found a) else Memory.read s.found a)

/-- R51, R171 to R175 (decisions D20, D23): a transaction asked for while a command is in hand that leaves
0x00..0x12, a READ_BLOCK of no byte, and a TEST_BIT or CHANGE_BIT whose mask is no power of two are
refused. -/
def Obligations.IllegalTransactionsRefused : Prop :=
  ∀ (s : State) (c : Instr) (n : Nat) (l : Locals), s.seq = .busy c n l →
    let p := s.busPort
    ((p.len = 0 ∨ 0x13 < p.addr.toNat + p.len) → exec .readBlock s = .refused .addressRange) ∧
    (0x13 < p.addr.toNat + p.bytes.length → exec .writeBlock s = .refused .addressRange) ∧
    (∀ i ∈ [Instr.testBit, Instr.changeBit, Instr.writeMasked],
      0x13 ≤ p.addr.toNat → exec i s = .refused .addressRange) ∧
    (∀ i ∈ [Instr.testBit, Instr.changeBit],
      p.addr.toNat < 0x13 → (∀ k < 8, p.mask ≠ BitVec.ofNat 8 (2 ^ k)) →
      exec i s = .refused .maskNotOneBit)

/-- R57: with an environment that changes nothing before the second issue, issuing a transaction twice at the
same step of a command, both times ok, leaves the register file as the first issue left it. -/
def Obligations.TransactionsIdempotent : Prop :=
  ∀ (i : Instr) (s t u : State),
    i ∈ [.readBlock, .writeBlock, .testBit, .changeBit, .writeMasked] →
    exec i s = .next t → exec i { t with seq := s.seq } = .next u →
    s.draw.ok = true → t.draw.ok = true → t.draw.env = [] →
    ∀ a, Memory.read u.regs a = Memory.read t.regs a

/-- R57, R172 to R176: whatever the instruction and the outcome, a next state's register file is the one
before if no transaction was issued, and else differs from the one the transaction found only in the bytes
that transaction stores; a failed transaction returned no data. -/
def Obligations.RegistersChangeOnlyWhereStored : Prop :=
  ∀ (i : Instr) (s t : State), exec i s = .next t →
    (t.trace = s.trace → t.regs = s.regs) ∧
    ∀ e : TraceEntry, t.trace = s.trace ++ [e] →
      (∀ a, (a < e.transaction.stores.1 ∨
          e.transaction.stores.1 + e.transaction.stores.2 ≤ a) →
        Memory.read t.regs a = Memory.read s.found a) ∧
      (e.outcome = .fail ↔ s.draw.ok = false) ∧ (e.outcome = .fail → e.data = none)

/-! ### The whole machine -/

/-- R33, R210: after construction YEAR_BASE holds the value given, 2000 if none is, the sequencer is Idle, no
result is present, the trace is empty and every register holds its free content. -/
def Obligations.ConstructionState : Prop :=
  (∀ yearBase : Fin 65271,
    let s := State.construct yearBase
    s.yearBase = yearBase ∧ s.seq = .idle ∧ s.result = none ∧ s.trace = [] ∧
      ∀ a, Memory.read s.regs a = Config.powerOnByte a) ∧
  State.reset = State.construct 2000

/-- The invariant of the machine (canonical register file, legal sequencer state, result and trace) holds
after construction. -/
def Obligations.ConstructionMeetsInvariant : Prop :=
  Inv State.reset ∧ ∀ yearBase : Fin 65271, Inv (State.construct yearBase)

/-- R22, R23, R51, R170: every step keeps the invariant of the machine, from every state that meets it. -/
def Obligations.StepKeepsInvariant : Prop :=
  ∀ s t : State, Inv s → step s = .next t → Inv t

/-- From every state that meets the invariant, a step is never stuck: it answers a next state or one of the
spec's refusals. -/
def Obligations.InvariantStatesNeverStuck : Prop :=
  ∀ (s : State) (f : Fault), Inv s → step s ≠ .fault f

/-- R22: no command issues more than two transactions: from Idle, a command that answers a next state is
either done, with at most one transaction, or before its second one; and the next move ends it, with
exactly two. -/
def Obligations.CommandsEndWithinTwoTransactions : Prop :=
  ∀ (i : Instr) (s t : State), i.isCommand = true → s.seq = .idle → exec i s = .next t →
    (t.seq = .idle ∧ t.result.isSome = true ∧ t.trace.length ≤ s.trace.length + 1) ∨
    (∃ l u, t.seq = .busy i 1 l ∧ t.trace.length = s.trace.length + 1 ∧ step t = .next u ∧
      u.seq = .idle ∧ u.result.isSome = true ∧ u.trace.length = s.trace.length + 2)

/-- R29: the trace is only ever extended, by at most one entry a step; each entry uses up one draw (the
model's choice, log entry 2). -/
def Obligations.TraceGrowsByOneEntry : Prop :=
  ∀ s t : State, step s = .next t →
    (t.trace = s.trace ∧ t.draws = s.draws ∧ t.drawCount = s.drawCount) ∨
    (∃ e, t.trace = s.trace ++ [e] ∧ t.draws = s.draws.tail ∧ t.drawCount = s.drawCount + 1)

/-- R50: each command issues only the kind of transaction, at the addresses, that the table of R50 gives it;
the five codec commands issue none. -/
def Obligations.CommandsReachOnlyTheirRegisters : Prop :=
  ∀ (i : Instr) (s t : State) (e : TraceEntry), i.isCommand = true → exec i s = .next t →
    t.trace = s.trace ++ [e] → mayIssue i e.transaction = true

/-- R20: YEAR_BASE lies in 0..65270 and no step changes it. -/
def Obligations.YearBaseNeverChanges : Prop :=
  ∀ s t : State, s.yearBase.val ≤ 65270 ∧ (step s = .next t → t.yearBase = s.yearBase)

/-- Frame of every instruction: YEAR_BASE, the command port, the operand ports and the bus-master port's
operands are unchanged. -/
def Obligations.ExecKeepsPorts : Prop :=
  ∀ (i : Instr) (s t : State), exec i s = .next t →
    t.yearBase = s.yearBase ∧ t.requests = s.requests ∧ t.dtPort = s.dtPort ∧
    t.blkPort = s.blkPort ∧ t.busPort = s.busPort

/-- R191, R23: two commands that end with Error look the same to the caller, whatever their causes. -/
def Obligations.ErrorCausesHiddenFromCaller : Prop :=
  ∀ (i j : Instr) (s s' t t' : State) (r r' : Result),
    i.isCommand = true → j.isCommand = true →
    exec i s = .next t → t.seq = .idle → t.result = some r → r.status = .error →
    exec j s' = .next t' → t'.seq = .idle → t'.result = some r' → r'.status = .error →
    visible r = visible r'

/-- R190: the codes of the causes, and which commands end with which: YEAR_RANGE only ENC_DT and SET_DT and
with no transaction, BUS_FAIL only after a failed transaction, and DEC_DT, DEC_TEMP, ENC_AL1 and ENC_AL2
never end with Error. -/
def Obligations.CausesByCommand : Prop :=
  Cause.none.code = 0 ∧ Cause.busFail.code = 1 ∧ Cause.yearRange.code = 2 ∧
  ∀ (i : Instr) (s t : State) (r : Result), i.isCommand = true → exec i s = .next t →
    t.seq = .idle → t.result = some r →
    (r.cause = .yearRange → (i = .encDt ∨ i = .setDt) ∧ t.trace = s.trace) ∧
    (r.cause = .busFail → ∃ e, t.trace = s.trace ++ [e] ∧ e.outcome = .fail) ∧
    (i ∈ [.decDt, .decTemp] → r.status = .success ∧ r.cause = .none) ∧
    (∀ m, i ∈ [.encAl1 m, .encAl2 m] → r.status = .success ∧ r.cause = .none)

/-- R140.3, R192, R195: a command one of whose transactions fails ends at once with Error(BUS_FAIL), except
that a failed acknowledging clear of IS_AL1_SET or IS_AL2_SET ends it with (Success, true). -/
def Obligations.FailedTransactionEndsCommand : Prop :=
  ∀ (i : Instr) (s t : State) (e : TraceEntry), i.isCommand = true → exec i s = .next t →
    t.trace = s.trace ++ [e] → e.outcome = .fail →
    t.seq = .idle ∧
    ((s.seq = .busy i 1 { flag := some true } ∧ (i = .isAl1Set ∨ i = .isAl2Set)) →
      t.result = some (succeeded (some (.bool true)))) ∧
    (¬(s.seq = .busy i 1 { flag := some true } ∧ (i = .isAl1Set ∨ i = .isAl2Set)) →
      t.result = some busFailed)

/-- R21: no value computed by one command is visible to a later one: changing what an earlier command left on
the result port and in the trace changes neither the outcome, nor the registers, nor the sequencer, nor the
result of the command that ends. -/
def Obligations.EarlierResultsNotVisible : Prop :=
  ∀ (i : Instr) (s : State) (r : Option Result) (tr : List TraceEntry), i.isCommand = true →
    (∀ t, exec i s = .next t →
      ∃ t', exec i { s with result := r, trace := tr } = .next t' ∧ t'.regs = t.regs ∧
        t'.seq = t.seq ∧ t'.draws = t.draws ∧ (t.seq = .idle → t'.result = t.result)) ∧
    (∀ q, exec i s = .refused q → exec i { s with result := r, trace := tr } = .refused q)

/-- R216 (93 U24; log entries 7 and 10): while a command is Busy, no other command has a step and no bus row
but the one it issues, and the machine's own step does not look at the command port. -/
def Obligations.BusyBlockTakesNoOtherCommand : Prop :=
  (∀ (i j : Instr) (s t : State) (k : Nat) (l : Locals),
    s.seq = .busy i k l → j ≠ i → exec j s = .next t → rowIssued s i k l = some j) ∧
  (∀ (s t : State) (i : Instr) (k : Nat) (l : Locals) (q : List Request),
    s.seq = .busy i k l → step s = .next t →
    step { s with requests := q } = .next { t with requests := q })

/-! ### The bus rows, the commands and the machine's step -/

/-- R95, R170: every transaction a command issues is the bus row of its kind code, run with the transaction's
operands on the bus-master port and the command in hand: the row's next state is the command's, but for that
port, which the command's own move leaves alone (log entry 9). -/
def Obligations.CommandsIssueBusRows : Prop :=
  ∀ (i : Instr) (s t : State) (e : TraceEntry), i.isCommand = true → exec i s = .next t →
    t.trace = s.trace ++ [e] →
    ∃ row : Instr, decode (.bus e.transaction.kind) = .ok row ∧
      let p := e.transaction.operands s.busPort
      exec row { s.inHand i with busPort := p } = .next { t with busPort := p }

/-- R170: the block never issues a transaction outside a command. While Idle no bus row has a step (log entry
8), and while Busy only the one the command in hand issues at its step has (rowIssued: none where the command
is refused or ends without a transaction); and every transaction a step of the machine
issues is one of a command, the one in hand or the one it accepts, lies in the register file, and addresses
the chip at 0x68. -/
def Obligations.TransactionsBelongToCommands : Prop :=
  (∀ (i : Instr) (s : State), i.isCommand = false → s.seq = .idle →
    exec i s = .fault .notIssued) ∧
  (∀ (i : Instr) (s t : State), i.isCommand = false → exec i s = .next t →
    ∃ c n l, c.isCommand = true ∧ s.seq = .busy c n l ∧ rowIssued s c n l = some i) ∧
  (∀ (s t : State) (e : TraceEntry), step s = .next t → t.trace = s.trace ++ [e] →
    ∃ c : Instr, c.isCommand = true ∧ mayIssue c e.transaction = true ∧
      ((∃ n l, s.seq = .busy c n l) ∨
        (s.seq = .idle ∧ ∃ r rest, s.requests = r :: rest ∧
          decode (.command r.word) = .ok c)) ∧
      e.transaction.refusal = none ∧ e.transaction.busAddress.toNat = 0x68)

/-- How a table row comes to be the very next instruction (log entries 19 and 20): a command word is placed as
the next request, a kind code as the transaction of a command in hand, and the next step is exec of it. -/
def Obligations.PlacedRowRunsNext : Prop :=
  (∀ (s : State) (w : BitVec 16) (i : Instr), decode (.command w) = .ok i →
    step (s.withFetchWord 16 w.toNat) =
      exec i { s with seq := .idle, blkPort := blockFor w s.blkPort }) ∧
  (∀ (s : State) (k : BitVec 3) (i : Instr), decode (.bus k) = .ok i →
    step (s.withFetchWord 8 k.toNat) = exec i (s.withFetchWord 8 k.toNat) ∧
    ∃ t, step (s.withFetchWord 8 k.toNat) = .next t)

/-! ### The environment and the order of the checks -/

/-- R26, R59.3 (log entries 3 and 29): what a transaction finds is the register file as it was left, with the
environment's changes made since: a register no change names is as it was left, one that changes name holds
the last of them, a change outside the file is dropped, and with no change the file found is the file left. The
changes are those of the next draw: the first one listed, or the free one (log entry 2). -/
def Obligations.TransactionsFindEnvironmentChanges : Prop :=
  ∀ s : State,
    (∀ a, (∀ v, (a, v) ∉ s.draw.env) → Memory.read s.found a = Memory.read s.regs a) ∧
    (∀ a v before after, a < 0x13 → s.draw.env = before ++ (a, v) :: after →
      (∀ w, (a, w) ∉ after) → Memory.read s.found a = v) ∧
    (∀ a, 0x13 ≤ a → Memory.read s.found a = Memory.read s.regs a) ∧
    (s.draw.env = [] → s.found = s.regs) ∧
    (∀ d rest, s.draws = d :: rest → s.draw = d) ∧
    (s.draws = [] → s.draw = Config.freeDraw s.drawCount)

/-- R194, R140.1, R142: the order of the checks, for a command just accepted. One with a refused operand is
refused, and so is every bus row while it is in hand; SET_DT with a year out of range ends with
Error(YEAR_RANGE) and no transaction, and no bus row has a step before it does. -/
def Obligations.ChecksPrecedeTransactions : Prop :=
  ∀ (s : State) (c : Instr), s.seq = .busy c 0 Locals.empty →
    ((((∃ m, c ∈ [.encDt, .encAl1 m, .encAl2 m, .setDt, .setAl1 m, .setAl2 m]) ∧
          dateTimeValid s.dtPort = false) ∨
        (c = .decDt ∧ s.blkPort.length ≠ 7) ∨ (c = .decTemp ∧ s.blkPort.length ≠ 2) ∨
        (∃ p, c = .setIntPin p ∧ p ∉ Config.intPinModes)) →
      (∃ r, exec c s = .refused r) ∧
      ∀ i ∈ [Instr.readBlock, .writeBlock, .testBit, .changeBit, .writeMasked],
        ∃ r, exec i s = .refused r) ∧
    ((c = .setDt ∧ dateTimeValid s.dtPort = true ∧
        (s.dtPort.year.toNat < s.yearBase ∨ s.yearBase + 200 ≤ s.dtPort.year.toNat)) →
      exec c s = .next { s with seq := .idle, result := some yearRejected } ∧
      ∀ i ∈ [Instr.readBlock, .writeBlock, .testBit, .changeBit, .writeMasked],
        ∀ t, exec i s ≠ .next t)
end

