-- ==== Sys2Proof/Laws/Memory.lean ====
section
/-! SUPPORT. The laws of the register file: a read after a write gives the byte written, a write leaves
every other register alone, and every operation keeps the canonical form. -/

namespace Sys2Proof.Machine

theorem listed_insert (m : Memory) (a b : Nat) (v : Byte) :
    Memory.listed (Memory.insert m a v) b = if a = b then some v else Memory.listed m b := by
  induction m with
  | nil => simp [Memory.insert, Memory.listed]
  | cons c rest ih =>
    obtain ⟨k, w⟩ := c
    rcases Nat.lt_trichotomy a k with h | h | h
    · simp [Memory.insert, Memory.listed, h]
    · subst h
      by_cases hb : a = b <;> simp [Memory.insert, Memory.listed, hb]
    · have h1 : ¬a < k := by omega
      have h2 : a ≠ k := by omega
      by_cases hb : k = b
      · have h3 : ¬a < b := by omega
        have h4 : a ≠ b := by omega
        simp [Memory.insert, Memory.listed, hb, h3, h4]
      · simp [Memory.insert, Memory.listed, h1, h2, hb, ih]

/-- A write to a register is read back there and nowhere else (R174, R176). -/
theorem read_write (m : Memory) (a b : Nat) (v : Byte) :
    Memory.read (Memory.write m a v) b =
      if a = b ∧ a < registerCount then v else Memory.read m b := by
  by_cases h : a < registerCount
  · simp only [Memory.read, Memory.write, h, if_true, listed_insert, and_true]
    split <;> rfl
  · simp [Memory.write, h]

/-- What a block write leaves in each register (R172). -/
theorem read_writeBlock (v : List Byte) (m : Memory) (a b : Nat) :
    Memory.read (Memory.writeBlock m a v) b =
      if a ≤ b ∧ b < registerCount then (v[b - a]?).getD (Memory.read m b)
      else Memory.read m b := by
  induction v generalizing m a with
  | nil => simp [Memory.writeBlock]
  | cons x rest ih =>
    rw [Memory.writeBlock, ih, read_write]
    rcases Nat.lt_trichotomy a b with h | h | h
    · obtain ⟨d, rfl⟩ := Nat.exists_eq_add_of_lt h
      have h1 : a + 1 ≤ a + d + 1 := by omega
      have h2 : a ≤ a + d + 1 := by omega
      have h3 : ¬a = a + d + 1 := by omega
      have h4 : a + d + 1 - a = (a + d + 1 - (a + 1)) + 1 := by omega
      simp only [h1, h2, h3, h4, true_and, false_and, if_false, List.getElem?_cons_succ]
    · subst h
      by_cases hr : a < registerCount <;> simp [hr]
    · have h1 : ¬a + 1 ≤ b := by omega
      have h2 : ¬a ≤ b := by omega
      have h3 : ¬a = b := by omega
      simp [h1, h2, h3]

/-- What a write of at most `n` bytes leaves, where the `n` registers exist: in the block the byte given,
or what was there where none is given; elsewhere what was there (R172, R176). -/
theorem read_writeBlock_within {v : List Byte} {m : Memory} {n a : Nat} (b : Nat)
    (hn : a + n ≤ registerCount) (hv : v.length ≤ n) :
    Memory.read (Memory.writeBlock m a v) b =
      if a ≤ b ∧ b < a + n then v.getD (b - a) (Memory.read m b) else Memory.read m b := by
  rw [read_writeBlock]
  by_cases h : a ≤ b ∧ b < a + n
  · rw [if_pos h, if_pos (by omega), List.getD_eq_getElem?_getD]
  · rw [if_neg h]
    split
    · rw [List.getElem?_eq_none (by omega)]
      rfl
    · rfl

/-- A block write leaves every register outside the block alone (R172, R176). -/
theorem read_writeBlock_outside {v : List Byte} {m : Memory} {a b : Nat}
    (h : b < a ∨ a + v.length ≤ b) :
    Memory.read (Memory.writeBlock m a v) b = Memory.read m b := by
  rw [read_writeBlock]
  split
  · have : v[b - a]? = none := by
      rw [List.getElem?_eq_none_iff]
      omega
    simp [this]
  · rfl

@[simp] theorem change_nil (m : Memory) : Memory.change m [] = m := rfl

@[simp] theorem length_block (m : Memory) (a n : Nat) : (Memory.block m a n).length = n := by
  simp [Memory.block]

/-- Byte `i` of a block is the register at `a + i` (R52). -/
theorem getElem?_block (m : Memory) {a n i : Nat} (h : i < n) :
    (Memory.block m a n)[i]? = some (Memory.read m (a + i)) := by
  simp [Memory.block, h]

theorem blockByte_block (m : Memory) {a n i : Nat} (h : i < n) :
    blockByte (Memory.block m a n) i = Memory.read m (a + i) := by
  simp [blockByte, List.getD_eq_getElem?_getD, getElem?_block m h]

/-! ### The canonical form -/

theorem insert_keys {m : Memory} {a k : Nat} {v : Byte} (hk : k < a)
    (h : m.all (fun c => k < c.1) = true) :
    (Memory.insert m a v).all (fun c => k < c.1) = true := by
  induction m with
  | nil => simp [Memory.insert, hk]
  | cons c rest ih =>
    obtain ⟨b, w⟩ := c
    simp only [List.all_cons, Bool.and_eq_true] at h
    simp only [Memory.insert]
    split
    · simp only [List.all_cons, Bool.and_eq_true]
      exact ⟨by simpa using hk, h.1, h.2⟩
    · split
      · simp only [List.all_cons, Bool.and_eq_true]
        exact ⟨by simpa using hk, h.2⟩
      · simp only [List.all_cons, Bool.and_eq_true]
        exact ⟨h.1, ih h.2⟩

theorem wf_insert {m : Memory} {a : Nat} {v : Byte} (ha : a < registerCount)
    (h : Memory.wf m = true) : Memory.wf (Memory.insert m a v) = true := by
  induction m with
  | nil => simp [Memory.insert, Memory.wf, ha]
  | cons c rest ih =>
    obtain ⟨b, w⟩ := c
    have h' := h
    simp only [Memory.wf, Bool.and_eq_true, decide_eq_true_eq, List.all_eq_true] at h'
    obtain ⟨⟨hb, hall⟩, hwf⟩ := h'
    simp only [Memory.insert]
    split
    · rename_i hab
      rw [Memory.wf, h]
      simp only [Bool.and_true, Bool.and_eq_true, decide_eq_true_eq, List.all_eq_true]
      refine ⟨ha, ?_⟩
      intro x hx
      rcases List.mem_cons.mp hx with rfl | hx
      · exact hab
      · exact Nat.lt_trans hab (hall x hx)
    · split
      · rename_i _ hab
        subst hab
        simp only [Memory.wf, Bool.and_eq_true, decide_eq_true_eq, List.all_eq_true]
        exact ⟨⟨ha, hall⟩, hwf⟩
      · rename_i h1 h2
        simp only [Memory.wf, Bool.and_eq_true]
        refine ⟨⟨by simpa using hb, ?_⟩, ih hwf⟩
        apply insert_keys (by omega)
        simpa using hall

/-- A write keeps the canonical form. -/
theorem wf_write {m : Memory} {a : Nat} {v : Byte} (h : Memory.wf m = true) :
    Memory.wf (Memory.write m a v) = true := by
  unfold Memory.write
  split
  · exact wf_insert ‹_› h
  · exact h

/-- A block write keeps the canonical form. -/
theorem wf_writeBlock (v : List Byte) {m : Memory} {a : Nat} (h : Memory.wf m = true) :
    Memory.wf (Memory.writeBlock m a v) = true := by
  induction v generalizing m a with
  | nil => exact h
  | cons x rest ih => exact ih (wf_write h)

/-- The chip environment's changes keep the canonical form. -/
theorem wf_change (cs : List (Nat × Byte)) {m : Memory} (h : Memory.wf m = true) :
    Memory.wf (Memory.change m cs) = true := by
  induction cs generalizing m with
  | nil => exact h
  | cons c rest ih =>
    obtain ⟨a, v⟩ := c
    exact ih (wf_write h)

theorem wf_applied (t : Transaction) {m : Memory} (h : Memory.wf m = true) :
    Memory.wf (t.applied m) = true := wf_writeBlock _ h

theorem wf_failed (t : Transaction) (left : List Byte) {m : Memory} (h : Memory.wf m = true) :
    Memory.wf (t.failed left m) = true := wf_writeBlock _ h

/-- Two canonical register files that list the same bytes are the same list. -/
theorem wf_ext {m n : Memory} (hm : Memory.wf m = true) (hn : Memory.wf n = true)
    (h : ∀ a, Memory.listed m a = Memory.listed n a) : m = n := by
  have low : ∀ {k : Nat} {r : Memory} {a : Nat}, r.all (fun c => k < c.1) = true → a ≤ k →
      Memory.listed r a = none := by
    intro k r a hr ha
    induction r with
    | nil => rfl
    | cons c rest ih =>
      obtain ⟨b, w⟩ := c
      simp only [List.all_cons, Bool.and_eq_true, decide_eq_true_eq] at hr
      have : ¬b = a := by omega
      simp [Memory.listed, this, ih hr.2]
  induction m generalizing n with
  | nil =>
    cases n with
    | nil => rfl
    | cons c rest => have := h c.1; simp [Memory.listed] at this
  | cons c rest ih =>
    obtain ⟨a, v⟩ := c
    cases n with
    | nil => have := h a; simp [Memory.listed] at this
    | cons d rest' =>
      obtain ⟨b, w⟩ := d
      simp only [Memory.wf, Bool.and_eq_true] at hm hn
      rcases Nat.lt_trichotomy a b with hab | hab | hab
      · have h1 := h a
        have : ¬b = a := by omega
        simp [Memory.listed, this, low hn.1.2 (Nat.le_of_lt hab)] at h1
      · subst hab
        have h1 := h a
        simp only [Memory.listed, if_true, Option.some.injEq] at h1
        subst h1
        have : rest = rest' := by
          refine ih hm.2 hn.2 fun x => ?_
          by_cases hx : a = x
          · subst hx
            rw [low hm.1.2 (Nat.le_refl _), low hn.1.2 (Nat.le_refl _)]
          · have := h x
            simpa [Memory.listed, hx] using this
        rw [this]
      · have h1 := h b
        have : ¬a = b := by omega
        simp [Memory.listed, this, low hm.1.2 (Nat.le_of_lt hab)] at h1

end Sys2Proof.Machine
end

