-- ==== Sys2Proof/Laws/State.lean ====
section
/-! SUPPORT. What each update of State leaves in each field, true by definition, so that no later proof
unfolds a record update. -/

namespace Sys2Proof.Machine

variable (s : State) (i : Instr) (r : Result) (v : Option Value) (c : Cause) (b : Bool)
  (m : Memory) (e : TraceEntry) (w : BitVec 16)

/-! ### accept -/
@[simp] theorem accept_seq : (s.accept i).seq = .busy i 0 Locals.empty := rfl
@[simp] theorem accept_yearBase : (s.accept i).yearBase = s.yearBase := rfl
@[simp] theorem accept_result : (s.accept i).result = s.result := rfl
@[simp] theorem accept_regs : (s.accept i).regs = s.regs := rfl
@[simp] theorem accept_trace : (s.accept i).trace = s.trace := rfl
@[simp] theorem accept_requests : (s.accept i).requests = s.requests := rfl
@[simp] theorem accept_dtPort : (s.accept i).dtPort = s.dtPort := rfl
@[simp] theorem accept_blkPort : (s.accept i).blkPort = s.blkPort := rfl
@[simp] theorem accept_busPort : (s.accept i).busPort = s.busPort := rfl
@[simp] theorem accept_draws : (s.accept i).draws = s.draws := rfl
@[simp] theorem accept_drawCount : (s.accept i).drawCount = s.drawCount := rfl
@[simp] theorem accept_draw : (s.accept i).draw = s.draw := rfl
@[simp] theorem accept_found : (s.accept i).found = s.found := rfl

/-! ### finish, succeed, raise -/
@[simp] theorem finish_seq : (s.finish r).seq = .idle := rfl
@[simp] theorem finish_result : (s.finish r).result = some r := rfl
@[simp] theorem finish_yearBase : (s.finish r).yearBase = s.yearBase := rfl
@[simp] theorem finish_regs : (s.finish r).regs = s.regs := rfl
@[simp] theorem finish_trace : (s.finish r).trace = s.trace := rfl
@[simp] theorem finish_requests : (s.finish r).requests = s.requests := rfl
@[simp] theorem finish_dtPort : (s.finish r).dtPort = s.dtPort := rfl
@[simp] theorem finish_blkPort : (s.finish r).blkPort = s.blkPort := rfl
@[simp] theorem finish_busPort : (s.finish r).busPort = s.busPort := rfl
@[simp] theorem finish_draws : (s.finish r).draws = s.draws := rfl
@[simp] theorem finish_drawCount : (s.finish r).drawCount = s.drawCount := rfl

@[simp] theorem succeed_seq : (s.succeed v).seq = .idle := rfl
@[simp] theorem succeed_result : (s.succeed v).result = some (succeeded v) := rfl
@[simp] theorem succeed_yearBase : (s.succeed v).yearBase = s.yearBase := rfl
@[simp] theorem succeed_regs : (s.succeed v).regs = s.regs := rfl
@[simp] theorem succeed_trace : (s.succeed v).trace = s.trace := rfl
@[simp] theorem succeed_requests : (s.succeed v).requests = s.requests := rfl
@[simp] theorem succeed_dtPort : (s.succeed v).dtPort = s.dtPort := rfl
@[simp] theorem succeed_blkPort : (s.succeed v).blkPort = s.blkPort := rfl
@[simp] theorem succeed_busPort : (s.succeed v).busPort = s.busPort := rfl
@[simp] theorem succeed_draws : (s.succeed v).draws = s.draws := rfl
@[simp] theorem succeed_drawCount : (s.succeed v).drawCount = s.drawCount := rfl

@[simp] theorem raise_seq : (s.raise c).seq = .idle := rfl
@[simp] theorem raise_result : (s.raise c).result = some (errorOf c) := rfl
@[simp] theorem raise_yearBase : (s.raise c).yearBase = s.yearBase := rfl
@[simp] theorem raise_regs : (s.raise c).regs = s.regs := rfl
@[simp] theorem raise_trace : (s.raise c).trace = s.trace := rfl
@[simp] theorem raise_requests : (s.raise c).requests = s.requests := rfl
@[simp] theorem raise_dtPort : (s.raise c).dtPort = s.dtPort := rfl
@[simp] theorem raise_blkPort : (s.raise c).blkPort = s.blkPort := rfl
@[simp] theorem raise_busPort : (s.raise c).busPort = s.busPort := rfl
@[simp] theorem raise_draws : (s.raise c).draws = s.draws := rfl
@[simp] theorem raise_drawCount : (s.raise c).drawCount = s.drawCount := rfl

/-! ### keepFlag -/
@[simp] theorem keepFlag_seq : (s.keepFlag b).seq = s.seq.keep b := rfl
@[simp] theorem keepFlag_yearBase : (s.keepFlag b).yearBase = s.yearBase := rfl
@[simp] theorem keepFlag_result : (s.keepFlag b).result = s.result := rfl
@[simp] theorem keepFlag_regs : (s.keepFlag b).regs = s.regs := rfl
@[simp] theorem keepFlag_trace : (s.keepFlag b).trace = s.trace := rfl
@[simp] theorem keepFlag_requests : (s.keepFlag b).requests = s.requests := rfl
@[simp] theorem keepFlag_dtPort : (s.keepFlag b).dtPort = s.dtPort := rfl
@[simp] theorem keepFlag_blkPort : (s.keepFlag b).blkPort = s.blkPort := rfl
@[simp] theorem keepFlag_busPort : (s.keepFlag b).busPort = s.busPort := rfl
@[simp] theorem keepFlag_draws : (s.keepFlag b).draws = s.draws := rfl
@[simp] theorem keepFlag_drawCount : (s.keepFlag b).drawCount = s.drawCount := rfl

/-! ### issued -/
@[simp] theorem issued_regs : (s.issued m e).regs = m := rfl
@[simp] theorem issued_trace : (s.issued m e).trace = s.trace ++ [e] := rfl
@[simp] theorem issued_seq : (s.issued m e).seq = s.seq.advance := rfl
@[simp] theorem issued_draws : (s.issued m e).draws = s.draws.tail := rfl
@[simp] theorem issued_drawCount : (s.issued m e).drawCount = s.drawCount + 1 := rfl
@[simp] theorem issued_yearBase : (s.issued m e).yearBase = s.yearBase := rfl
@[simp] theorem issued_result : (s.issued m e).result = s.result := rfl
@[simp] theorem issued_requests : (s.issued m e).requests = s.requests := rfl
@[simp] theorem issued_dtPort : (s.issued m e).dtPort = s.dtPort := rfl
@[simp] theorem issued_blkPort : (s.issued m e).blkPort = s.blkPort := rfl
@[simp] theorem issued_busPort : (s.issued m e).busPort = s.busPort := rfl

/-! ### present -/
@[simp] theorem present_seq : (s.present w).seq = .idle := rfl
@[simp] theorem present_yearBase : (s.present w).yearBase = s.yearBase := rfl
@[simp] theorem present_result : (s.present w).result = s.result := rfl
@[simp] theorem present_regs : (s.present w).regs = s.regs := rfl
@[simp] theorem present_trace : (s.present w).trace = s.trace := rfl
@[simp] theorem present_dtPort : (s.present w).dtPort = s.dtPort := rfl
@[simp] theorem present_blkPort : (s.present w).blkPort = s.blkPort := rfl
@[simp] theorem present_busPort : (s.present w).busPort = s.busPort := rfl
@[simp] theorem present_draws : (s.present w).draws = s.draws := rfl
@[simp] theorem present_drawCount : (s.present w).drawCount = s.drawCount := rfl

/-- A presented word is the next one taken. -/
theorem takeRequest_present : (s.present w).takeRequest =
    some (w, { s with seq := .idle, blkPort := blockFor w s.blkPort }) := rfl

/-- What taking a request can do: there is none, or the oldest goes to the ports. -/
theorem takeRequest_cases {s s' : State} {w : BitVec 16} (h : s.takeRequest = some (w, s')) :
    ∃ r rest, s.requests = r :: rest ∧ w = r.word ∧
      s' = { s with requests := rest, dtPort := r.dt, blkPort := r.blk } := by
  unfold State.takeRequest at h
  split at h
  · cases h
  · rename_i r rest hr
    cases h
    exact ⟨r, rest, hr, rfl, rfl⟩

/-- Placing a kind code touches the sequencer, the DT port and the bus-master port only. -/
theorem presentKind_frame (stages : Instr → List Stage) (k : BitVec 3) :
    ∃ q dt p, s.presentKind stages k = { s with seq := q, dtPort := dt, busPort := p } := by
  unfold State.presentKind
  split
  · exact ⟨_, _, _, rfl⟩
  · split
    · exact ⟨_, _, _, rfl⟩
    · dsimp only
      split <;> exact ⟨_, _, _, rfl⟩

end Sys2Proof.Machine
end

