-- ==== Sys2Proof/Laws/Bus.lean ====
section
/-! SUPPORT. What a transaction does, once (spec/43_bus.md R170 to R177): the two cases of its draw, for
the shared operation and for each of the five primitives the commands use. -/

namespace Sys2Proof.Machine

variable {s : State}

/-- A transaction whose draw is ok. -/
theorem transact_ok (t : Transaction) (h : s.draw.ok = true) :
    transact t s = (⟨t, .ok, t.returned s.found⟩,
      s.issued (t.applied s.found) ⟨t, .ok, t.returned s.found⟩) := by
  simp [transact, h]

/-- A transaction whose draw is fail (R176). -/
theorem transact_fail (t : Transaction) (h : s.draw.ok = false) :
    transact t s = (⟨t, .fail, none⟩,
      s.issued (t.failed s.draw.left s.found) ⟨t, .fail, none⟩) := by
  simp [transact, h]

/-- Everything a transaction can do. -/
theorem transact_cases (t : Transaction) (s : State) :
    (s.draw.ok = true ∧ transact t s = (⟨t, .ok, t.returned s.found⟩,
      s.issued (t.applied s.found) ⟨t, .ok, t.returned s.found⟩)) ∨
    (s.draw.ok = false ∧ transact t s = (⟨t, .fail, none⟩,
      s.issued (t.failed s.draw.left s.found) ⟨t, .fail, none⟩)) := by
  cases h : s.draw.ok
  · exact .inr ⟨rfl, transact_fail t h⟩
  · exact .inl ⟨rfl, transact_ok t h⟩

@[simp] theorem applied_readBlock (a : RegAddr) (n : Nat) (m : Memory) :
    Transaction.applied (.readBlock a n) m = m := rfl
@[simp] theorem applied_testBit (a : RegAddr) (k : Byte) (m : Memory) :
    Transaction.applied (.testBit a k) m = m := rfl
@[simp] theorem failed_readBlock (a : RegAddr) (n : Nat) (l : List Byte) (m : Memory) :
    Transaction.failed (.readBlock a n) l m = m := by
  simp [Transaction.failed, Transaction.stores, Memory.writeBlock]
@[simp] theorem failed_testBit (a : RegAddr) (k : Byte) (l : List Byte) (m : Memory) :
    Transaction.failed (.testBit a k) l m = m := by
  simp [Transaction.failed, Transaction.stores, Memory.writeBlock]

/-! What each primitive of R9 answers, by the draw. -/

@[simp] theorem bytes_ok (x : Transaction) (b : List Byte) :
    TraceEntry.bytes ⟨x, .ok, some (.bytes b)⟩ = some b := rfl
@[simp] theorem bytes_fail (x : Transaction) : TraceEntry.bytes ⟨x, .fail, none⟩ = none := rfl
@[simp] theorem bit_ok (x : Transaction) (b : Bool) :
    TraceEntry.bit ⟨x, .ok, some (.bit b)⟩ = some b := rfl
@[simp] theorem bit_fail (x : Transaction) : TraceEntry.bit ⟨x, .fail, none⟩ = none := rfl
@[simp] theorem isOk_ok (x : Transaction) (d : Option BusData) :
    TraceEntry.isOk ⟨x, .ok, d⟩ = true := rfl
@[simp] theorem isOk_fail (x : Transaction) (d : Option BusData) :
    TraceEntry.isOk ⟨x, .fail, d⟩ = false := rfl

/-- What a transaction that takes place with the draw ok leaves and answers, for each kind. -/
theorem transact_readBlock (a : RegAddr) (n : Nat) (h : s.draw.ok = true) :
    transact (.readBlock a n) s =
      (⟨.readBlock a n, .ok, some (.bytes (Memory.block s.found a.toNat n))⟩,
        s.issued s.found ⟨.readBlock a n, .ok, some (.bytes (Memory.block s.found a.toNat n))⟩) :=
  transact_ok _ h

theorem transact_testBit (a : RegAddr) (m : Byte) (h : s.draw.ok = true) :
    transact (.testBit a m) s =
      (⟨.testBit a m, .ok, some (.bit (bitIsSet (Memory.read s.found a.toNat) m))⟩,
        s.issued s.found
          ⟨.testBit a m, .ok, some (.bit (bitIsSet (Memory.read s.found a.toNat) m))⟩) :=
  transact_ok _ h

theorem transact_writeBlock (a : RegAddr) (v : List Byte) (h : s.draw.ok = true) :
    transact (.writeBlock a v) s = (⟨.writeBlock a v, .ok, none⟩,
      s.issued (Memory.writeBlock s.found a.toNat v) ⟨.writeBlock a v, .ok, none⟩) :=
  transact_ok _ h

theorem transact_changeBit (a : RegAddr) (m : Byte) (d : BitDirection) (h : s.draw.ok = true) :
    transact (.changeBit a m d) s = (⟨.changeBit a m d, .ok, none⟩,
      s.issued (Memory.write s.found a.toNat (changedBit (Memory.read s.found a.toNat) m d))
        ⟨.changeBit a m d, .ok, none⟩) :=
  transact_ok _ h

theorem transact_writeMasked (a : RegAddr) (m v : Byte) (h : s.draw.ok = true) :
    transact (.writeMasked a m v) s = (⟨.writeMasked a m v, .ok, none⟩,
      s.issued (Memory.write s.found a.toNat (maskedByte (Memory.read s.found a.toNat) m v))
        ⟨.writeMasked a m v, .ok, none⟩) :=
  transact_ok _ h

/-- A transaction's next state is the issued one, whatever its draw: its trace entry is the one it
answers, and a fail carries no data. -/
theorem transact_issued (t : Transaction) (s : State) :
    ∃ m e, transact t s = (e, s.issued m e) ∧ e.transaction = t ∧
      (e.outcome = .fail → e.data = none) ∧
      (Memory.wf s.regs = true → Memory.wf m = true) := by
  rcases transact_cases t s with ⟨_, h⟩ | ⟨_, h⟩
  · exact ⟨_, _, h, rfl, by simp, fun w => wf_applied t (wf_change _ w)⟩
  · exact ⟨_, _, h, rfl, by simp, fun w => wf_failed t _ (wf_change _ w)⟩

end Sys2Proof.Machine
end

