-- ==== Sys2Proof/Laws/Codec.lean ====
section
/-! SUPPORT. The small lemmas of the BCD primitives (spec/40_decode.md R100, spec/41_encode.md R120). -/

namespace Sys2Proof.Machine

/-- `bin2bcd` as a number: the tens digit in the high nibble, the units digit in the low one. -/
theorem toNat_bin2bcd {v : Nat} (hv : v < 100) :
    (bin2bcd v).toNat = 16 * (v / 10) + v % 10 := by
  revert v
  decide

/-- `bcd2bin(bin2bcd(v)) = v` on 0..99 (R120). -/
theorem bcd2bin_bin2bcd {v : Nat} (h : v < 100) : bcd2bin (bin2bcd v) = v := by
  rw [bcd2bin, toNat_bin2bcd h]
  omega

/-- The range of `bcd2bin` (R100). -/
theorem bcd2bin_le (b : Byte) : bcd2bin b ≤ 165 := by
  have := b.isLt
  unfold bcd2bin
  omega

/-- A BCD byte of a value below 40, 80 or 20 passes its register's decode mask (R76). -/
theorem bin2bcd_masks {v : Nat} :
    (v < 80 → bin2bcd v &&& 0x7F = bin2bcd v) ∧ (v < 40 → bin2bcd v &&& 0x3F = bin2bcd v) ∧
      (v < 20 → bin2bcd v &&& 0x1F = bin2bcd v) := by
  have h1 : ∀ v < 80, bin2bcd v &&& 0x7F = bin2bcd v := by decide
  have h2 : ∀ v < 40, bin2bcd v &&& 0x3F = bin2bcd v := by decide
  have h3 : ∀ v < 20, bin2bcd v &&& 0x1F = bin2bcd v := by decide
  exact ⟨h1 v, h2 v, h3 v⟩

end Sys2Proof.Machine
end

