-- ==== Sys2Proof/Laws/Decode.lean ====
section
/-! SUPPORT. What the decoder can answer (spec/30_encoding.md R90 to R93, R95), one lemma a function. -/

namespace Sys2Proof

theorem plainCommand_ok {arg : BitVec 5} {i j : Instr} (h : plainCommand arg j = .ok i) :
    arg = 0 ∧ i = j := by
  unfold plainCommand at h
  split at h
  · cases h
    exact ⟨‹_›, rfl⟩
  · cases h

theorem pinCommand_ok {arg : BitVec 5} {i : Instr} (h : pinCommand arg = .ok i) :
    Config.intPinModes.contains arg = true ∧ i = .setIntPin arg := by
  unfold pinCommand at h
  split at h
  · cases h
    exact ⟨‹_›, rfl⟩
  · cases h

/-- What a row of the opcode map accepts: a well-formed command with that row's OP and that ARG. -/
theorem opcodeMap_ok {row : OpRow} (hr : row ∈ opcodeMap) {arg : BitVec 5} {i : Instr}
    (h : row.2 arg = .ok i) :
    i.isCommand = true ∧ i.wellFormed = true ∧ i.opcode = row.1 ∧ i.arg = arg := by
  simp only [opcodeMap, List.mem_cons, List.not_mem_nil, or_false] at hr
  rcases hr with rfl | rfl | rfl | rfl | rfl | rfl | rfl | rfl | rfl | rfl | rfl | rfl | rfl | rfl
    | rfl | rfl
  all_goals
    first
      | (obtain ⟨ha, rfl⟩ := plainCommand_ok h
         exact ⟨rfl, rfl, rfl, ha.symm⟩)
      | (obtain ⟨ha, rfl⟩ := pinCommand_ok h
         exact ⟨rfl, ha, rfl, rfl⟩)
      | (cases h
         exact ⟨rfl, rfl, rfl, rfl⟩)

/-- No two rows of the opcode map share an OP: each word has one meaning. -/
theorem opcodeMap_distinct : opcodeMap.Pairwise (fun r r' => r.1 ≠ r'.1) := by
  simp [opcodeMap]

/-- Everything the opcode map accepts. -/
theorem decodeOp_ok {op : BitVec 8} {arg : BitVec 5} {i : Instr} (h : decodeOp op arg = .ok i) :
    i.isCommand = true ∧ i.wellFormed = true ∧ i.opcode = op ∧ i.arg = arg := by
  unfold decodeOp at h
  split at h
  · rename_i row hrow
    have hop : row.1 = op := by simpa using List.find?_some hrow
    rw [← hop]
    exact opcodeMap_ok (List.mem_of_find?_eq_some hrow) h
  · cases h

/-- A command word is accepted only with RSV 0 and by the opcode map. -/
theorem decodeCommand_ok {w : BitVec 16} {i : Instr} (h : decodeCommand w = .ok i) :
    rsvField w = 0 ∧ decodeOp (opField w) (argField w) = .ok i := by
  unfold decodeCommand at h
  split at h
  · exact ⟨‹_›, h⟩
  · cases h

/-- The three fields of a command word as numbers (R90). -/
theorem toNat_fields (w : BitVec 16) :
    (opField w).toNat = w.toNat % 256 ∧ (argField w).toNat = w.toNat / 256 % 32 ∧
      (rsvField w).toNat = w.toNat / 8192 := by
  have := w.isLt
  simp only [opField, argField, rsvField, BitVec.extractLsb'_toNat, Nat.shiftRight_eq_div_pow]
  norm_num
  omega

/-- `(ARG << 8) | OP` as a number (R92). -/
theorem toNat_commandWord (op : BitVec 8) (arg : BitVec 5) :
    (commandWord op arg).toNat = 256 * arg.toNat + op.toNat := by
  have h1 := op.isLt
  have h2 := arg.isLt
  have h : 2 ^ 8 * arg.toNat ||| op.toNat = 2 ^ 8 * arg.toNat + op.toNat :=
    (Nat.two_pow_add_eq_or_of_lt (i := 8) h1 arg.toNat).symm
  simp only [commandWord, BitVec.toNat_or, BitVec.toNat_shiftLeft, BitVec.toNat_setWidth,
    Nat.shiftLeft_eq]
  rw [Nat.mod_eq_of_lt (by omega : arg.toNat < 2 ^ 16), Nat.mod_eq_of_lt (by omega),
    Nat.mod_eq_of_lt (by omega : op.toNat < 2 ^ 16), Nat.mul_comm, h]
  omega

end Sys2Proof
end

