-- ==== Sys2Proof/Laws/Sequencer.lean ====
section
/-! SUPPORT. What one move of the sequencer can do (spec/10_state.md R22), once for the shared operation. -/

namespace Sys2Proof.Machine

variable {s t : State} {i : Instr}

theorem runStage_zero (st : Stage) (rest : List Stage) (l : Locals) (h : l = st.expects) :
    runStage (st :: rest) 0 l s = .next (st.run s) := by
  simp [runStage, h]

/-- From Idle, a command is accepted and its first stage run. -/
theorem sequence_idle (stages : List Stage) (h : s.seq = .idle) :
    sequence i stages s = runStage stages 0 Locals.empty (s.accept i) := by
  simp [sequence, h]

/-- While the command is in hand, the stage its step counts is run. -/
theorem sequence_busy (stages : List Stage) {k : Nat} {l : Locals} (h : s.seq = .busy i k l) :
    sequence i stages s = runStage stages k l s := by
  simp [sequence, h]

/-- While another command is in hand, there is no step (R216). -/
theorem sequence_overlap (stages : List Stage) {j : Instr} {k : Nat} {l : Locals}
    (h : s.seq = .busy j k l) (hj : j ≠ i) :
    sequence i stages s = .fault .overlappingCommand := by
  simp [sequence, h, hj]

/-- A stage that ends the command. -/
theorem run_ends {st : Stage} {r : Result} (h : st.move s = .ends r) : st.run s = s.finish r := by
  simp [Stage.run, h]

/-- A stage that issues a transaction. -/
theorem run_issues {st : Stage} {x : Transaction} (h : st.move s = .issues x) :
    st.run s = st.perform x s := by
  simp [Stage.run, h]

/-- A stage that performs a transaction with the draw ok. -/
theorem perform_ok (st : Stage) (x : Transaction) (h : s.draw.ok = true) :
    st.perform x s = st.resume ⟨x, .ok, x.returned s.found⟩
      (s.issued (x.applied s.found) ⟨x, .ok, x.returned s.found⟩) := by
  simp [Stage.perform, transact_ok x h]

/-- A stage that performs a transaction with the draw fail. -/
theorem perform_fail (st : Stage) (x : Transaction) (h : s.draw.ok = false) :
    st.perform x s = st.resume ⟨x, .fail, none⟩
      (s.issued (x.failed s.draw.left s.found) ⟨x, .fail, none⟩) := by
  simp [Stage.perform, transact_fail x h]

/-- From Idle, a command whose first stage starts from no locals runs it. -/
theorem sequence_first {st : Stage} (rest : List Stage) (he : st.expects = Locals.empty)
    (h : s.seq = .idle) : sequence i (st :: rest) s = .next (st.run (s.accept i)) := by
  rw [sequence_idle _ h, runStage_zero _ _ _ he.symm]

/-- Everything a move of the sequencer that answers a next state can be: some stage, from the locals it
starts from, in the accepted state or in the state with the command in hand. -/
theorem sequence_cases {stages : List Stage} (h : sequence i stages s = .next t) :
    ∃ (k : Nat) (st : Stage) (s₀ : State), stages[k]? = some st ∧ t = st.run s₀ ∧
      ((s.seq = .idle ∧ k = 0 ∧ st.expects = Locals.empty ∧ s₀ = s.accept i) ∨
        (s.seq = .busy i k st.expects ∧ s₀ = s)) := by
  unfold sequence at h
  split at h
  · rename_i hs
    unfold runStage at h
    split at h
    · cases h
    · rename_i st hst
      split at h
      · rename_i hl
        cases h
        exact ⟨0, st, _, hst, rfl, .inl ⟨hs, rfl, hl.symm, rfl⟩⟩
      · cases h
  · rename_i j k l hs
    split at h
    · rename_i hj
      subst hj
      unfold runStage at h
      split at h
      · cases h
      · rename_i st hst
        split at h
        · rename_i hl
          subst hl
          cases h
          exact ⟨k, st, _, hst, rfl, .inr ⟨hs, rfl⟩⟩
        · cases h
    · cases h

/-- A one-stage command that answers a next state. -/
theorem sequenceOne_cases {st : Stage} (he : st.expects = Locals.empty)
    (h : sequence i [st] s = .next t) :
    ∃ s₀, t = st.run s₀ ∧ ((s.seq = .idle ∧ s₀ = s.accept i) ∨
      (s.seq = .busy i 0 Locals.empty ∧ s₀ = s)) := by
  obtain ⟨k, st', s₀, hk, ht, hs⟩ := sequence_cases h
  cases k with
  | zero =>
    simp only [List.getElem?_cons_zero, Option.some.injEq] at hk
    subst hk
    rcases hs with ⟨h1, _, _, h2⟩ | ⟨h1, h2⟩
    · exact ⟨s₀, ht, .inl ⟨h1, h2⟩⟩
    · exact ⟨s₀, ht, .inr ⟨by rw [h1, he], h2⟩⟩
  | succ k => simp at hk

/-- A two-stage command that answers a next state. -/
theorem sequenceTwo_cases {first second : Stage} (he : first.expects = Locals.empty)
    (h : sequence i [first, second] s = .next t) :
    (∃ s₀, t = first.run s₀ ∧ ((s.seq = .idle ∧ s₀ = s.accept i) ∨
      (s.seq = .busy i 0 Locals.empty ∧ s₀ = s))) ∨
    (t = second.run s ∧ s.seq = .busy i 1 second.expects) := by
  obtain ⟨k, st, s₀, hk, ht, hs⟩ := sequence_cases h
  match k with
  | 0 =>
    simp only [List.getElem?_cons_zero, Option.some.injEq] at hk
    subst hk
    refine .inl ⟨s₀, ht, ?_⟩
    rcases hs with ⟨h1, _, _, h2⟩ | ⟨h1, h2⟩
    · exact .inl ⟨h1, h2⟩
    · exact .inr ⟨by rw [h1, he], h2⟩
  | 1 =>
    simp only [List.getElem?_cons_succ, List.getElem?_cons_zero, Option.some.injEq] at hk
    subst hk
    rcases hs with ⟨_, h1, _⟩ | ⟨h1, h2⟩
    · omega
    · subst h2
      exact .inr ⟨ht, h1⟩
  | k + 2 => simp at hk

/-- A command that answers a next state is admitted. -/
theorem command_next {stages : List Stage} (h : command i stages s = .next t) :
    admission i s = none ∧ sequence i stages s = .next t := by
  unfold command at h
  split at h
  · cases h
  · exact ⟨‹_›, h⟩

/-- An admitted command moves the sequencer. -/
theorem command_admitted {stages : List Stage} (h : admission i s = none) :
    command i stages s = sequence i stages s := by
  simp [command, h]

/-- A command with a refused operand (R194.1). -/
theorem command_refused {stages : List Stage} {r : Refusal} (h : admission i s = some r) :
    command i stages s = .refused r := by
  simp [command, h]

theorem admitDateTime_none : admitDateTime s = none ↔ dateTimeValid s.dtPort = true := by
  simp [admitDateTime]

theorem admitBlock_none {n : Nat} : admitBlock n s = none ↔ s.blkPort.length = n := by
  simp [admitBlock]

theorem admitPinMode_none {p : BitVec 5} : admitPinMode p = none ↔ Config.intPinModes.contains p = true := by
  simp only [admitPinMode]
  split <;> simp_all

/-- A stage issues a transaction such as `x` where it issues one at all and `x` is of its kind. -/
theorem issues_cases {st : Stage} {x : Transaction} (h : st.issues x s = true) :
    st.takes x = true ∧ ∃ y, st.move s = .issues y := by
  unfold Stage.issues at h
  split at h
  · cases h
  · exact ⟨h, _, ‹_›⟩

theorem issues_of {st : Stage} {x y : Transaction} (hm : st.move s = .issues y) (hx : st.takes x = true) :
    st.issues x s = true := by
  simp [Stage.issues, hm, hx]

/-- Everything a bus row that answers a next state can be: the transaction of a stage of the command in
hand. -/
theorem transactInHand_next {stages : Instr → List Stage} {x : Transaction}
    (h : transactInHand stages x s = .next t) :
    ∃ c k st, s.seq = .busy c k st.expects ∧ (stages c)[k]? = some st ∧ x.refusal = none ∧
      admission c s = none ∧ st.issues x s = true ∧ t = st.perform x s := by
  unfold transactInHand at h
  split at h
  · cases h
  · rename_i c k l hs
    split at h
    · cases h
    · rename_i hr
      split at h
      · cases h
      · rename_i ha
        split at h
        · cases h
        · rename_i st hst
          split at h
          · rename_i hl
            split at h
            · rename_i hk
              cases h
              exact ⟨c, k, st, by rw [hs, hl], hst, hr, ha, hk, rfl⟩
            · cases h
          · cases h

/-- A bus row where the command in hand issues such a transaction. -/
theorem transactInHand_busy {stages : Instr → List Stage} {x : Transaction} {c : Instr} {k : Nat}
    {st : Stage} (hs : s.seq = .busy c k st.expects) (hst : (stages c)[k]? = some st)
    (hr : x.refusal = none) (ha : admission c s = none) (hk : st.issues x s = true) :
    transactInHand stages x s = .next (st.perform x s) := by
  simp [transactInHand, hs, hst, hr, ha, hk]

/-- A bus row while Idle (R170). -/
theorem transactInHand_idle {stages : Instr → List Stage} {x : Transaction} (hs : s.seq = .idle) :
    transactInHand stages x s = .fault .notIssued := by
  simp [transactInHand, hs]

end Sys2Proof.Machine
end

