-- ==== Sys2Proof/Laws/Exec.lean ====
section
/-! SUPPORT. Everything exec can do, once (spec/10_state.md R22, spec/60_exceptions.md R190): the inversion
that the machine-level statements cite instead of unfolding the meanings. -/

namespace Sys2Proof.Machine

/-- What the first stage of a command makes of the state `s` it runs in. -/
inductive FirstStage (i : Instr) (s t : State) : Prop
  /-- It ends the command with no transaction. -/
  | pure (r : Result) (next : t = s.finish r) (legal : resultOk (some r) = true)
      (cause : r.cause = .none ∨ (r.cause = .yearRange ∧ (i = .encDt ∨ i = .setDt)))
  /-- It ends the command with one transaction. -/
  | ended (x : Transaction) (r : Result) (next : t = (transact x s).2.finish r)
      (legal : resultOk (some r) = true) (admitted : x.refusal = none)
      (reach : mayIssue i x = true) (cause : r.cause = .none ∨ r.cause = .busFail)
      (failed : r.cause = .busFail → s.draw.ok = false)
      (failing : s.draw.ok = false → r = busFailed)
  /-- It leaves the command before its second transaction. -/
  | goesOn (x : Transaction) (l : Locals)
      (next : t = { (transact x s).2 with seq := .busy i 1 l })
      (locals : secondLocals i = some l) (admitted : x.refusal = none)
      (reach : mayIssue i x = true) (succeeded : s.draw.ok = true)

/-- The sequencer state in which a first stage of `i` runs: just accepted, or found so. -/
def StartOf (i : Instr) (s s₀ : State) : Prop :=
  (s.seq = .idle ∧ s₀ = s.accept i) ∨ (s.seq = .busy i 0 Locals.empty ∧ s₀ = s)

theorem StartOf.seq {i : Instr} {s s₀ : State} (h : StartOf i s s₀) :
    s₀.seq = .busy i 0 Locals.empty := by
  rcases h with ⟨_, rfl⟩ | ⟨h, rfl⟩
  · rfl
  · exact h

/-- The one transaction of a start state is that of the state itself: acceptance changes the sequencer
only. -/
theorem StartOf.eq_with {i : Instr} {s s₀ : State} (h : StartOf i s s₀) :
    s₀ = { s with seq := .busy i 0 Locals.empty } := by
  rcases h with ⟨_, rfl⟩ | ⟨h, rfl⟩
  · rfl
  · rw [← h]

variable {i : Instr} {s t : State}

/-- A command without a transaction. -/
theorem firstStage_pure (result : State → Result) (legal : resultOk (some (result s)) = true)
    (cause : (result s).cause = .none ∨ ((result s).cause = .yearRange ∧ (i = .encDt ∨ i = .setDt))) :
    FirstStage i s ((pureStage result).run s) :=
  .pure (result s) rfl legal cause

theorem firstStage_read (r : Reg) (n : Nat) (k : Transaction → Bool) (v : State → List Byte → Value)
    (reach : mayIssue i (.readBlock (regAddr r) n) = true)
    (admitted : (Transaction.readBlock (regAddr r) n).refusal = none) :
    FirstStage i s ((readStage r n k v).run s) := by
  rw [run_issues (x := .readBlock (regAddr r) n) rfl]
  cases hd : s.draw.ok
  · exact .ended (.readBlock (regAddr r) n) (errorOf .busFail)
      (by rw [perform_fail _ _ hd, transact_fail _ hd]; rfl) rfl admitted reach (.inr rfl)
      (fun _ => hd) (fun _ => rfl)
  · exact .ended (.readBlock (regAddr r) n) (succeeded (some (v _ _)))
      (by rw [perform_ok _ _ hd, transact_ok _ hd]; rfl) rfl admitted reach (.inl rfl)
      (by simp [succeeded]) (by simp [hd])

theorem firstStage_write (r : Reg) (block : State → Except Cause (List Byte)) (b : List Byte)
    (hb : block s = .ok b) (reach : mayIssue i (.writeBlock (regAddr r) b) = true)
    (admitted : (Transaction.writeBlock (regAddr r) b).refusal = none) :
    FirstStage i s ((writeStage r block).run s) := by
  rw [run_issues (x := .writeBlock (regAddr r) b) (by simp [writeStage, hb])]
  cases hd : s.draw.ok
  · exact .ended (.writeBlock (regAddr r) b) (errorOf .busFail)
      (by rw [perform_fail _ _ hd, transact_fail _ hd]; rfl) rfl admitted reach (.inr rfl)
      (fun _ => hd) (fun _ => rfl)
  · exact .ended (.writeBlock (regAddr r) b) (succeeded none)
      (by rw [perform_ok _ _ hd, transact_ok _ hd]; rfl) rfl admitted reach (.inl rfl)
      (by simp [succeeded]) (by simp [hd])

/-- A first stage that tests a bit: for each answer it ends the command, or keeps the flag it read. -/
theorem firstStage_test (r : Reg) (m : Byte) (goOn : Bool → State → State)
    (busy : s.seq = .busy i 0 Locals.empty)
    (reach : mayIssue i (.testBit (regAddr r) m) = true)
    (admitted : (Transaction.testBit (regAddr r) m).refusal = none)
    (go : ∀ b, (∃ v, ∀ u : State, goOn b u = u.succeed (some (.bool v))) ∨
      (secondLocals i = some { flag := some b } ∧ ∀ u : State, goOn b u = u.keepFlag b)) :
    FirstStage i s ((testStage Locals.empty r m goOn).run s) := by
  rw [run_issues (x := .testBit (regAddr r) m) rfl]
  cases hd : s.draw.ok
  · exact .ended (.testBit (regAddr r) m) (errorOf .busFail)
      (by rw [perform_fail _ _ hd, transact_fail _ hd]; rfl) rfl admitted reach (.inr rfl)
      (fun _ => hd) (fun _ => rfl)
  · rcases go (bitIsSet (Memory.read s.found (regAddr r).toNat) m) with ⟨v, hv⟩ | ⟨hl, hk⟩
    · exact .ended (.testBit (regAddr r) m) (succeeded (some (.bool v)))
        (by rw [perform_ok _ _ hd, transact_ok _ hd]; exact hv _) rfl admitted reach (.inl rfl)
        (by simp [succeeded]) (by simp [hd])
    · refine .goesOn (.testBit (regAddr r) m) _ ?_ hl admitted reach hd
      rw [perform_ok _ _ hd, transact_ok _ hd]
      refine (hk _).trans ?_
      simp [State.keepFlag, State.issued, busy, Seq.advance, Seq.keep]

/-- The last transaction of a two-transaction command: `s` was before it, with locals `l`. -/
def SecondStage (i : Instr) (s t : State) : Prop :=
  ∃ (x : Transaction) (l : Locals) (r : Result), t = (transact x s).2.finish r ∧
    secondLocals i = some l ∧ s.seq = .busy i 1 l ∧ resultOk (some r) = true ∧
    x.refusal = none ∧ mayIssue i x = true ∧ (r.cause = .none ∨ r.cause = .busFail) ∧
    (r.cause = .busFail → s.draw.ok = false) ∧
    (s.draw.ok = false → r = if i = .isAl1Set ∨ i = .isAl2Set then succeeded (some (.bool true))
      else busFailed)

theorem firstStage_flag (i : Instr) (mask : Byte) (busy : s.seq = .busy i 0 Locals.empty)
    (reach : mayIssue i (.testBit 0x0F mask) = true)
    (admitted : (Transaction.testBit 0x0F mask).refusal = none)
    (locals : secondLocals i = some { flag := some true }) :
    FirstStage i s ((testStage Locals.empty .status mask fun fired s =>
      if fired then s.keepFlag true else s.succeed (some (.bool false))).run s) :=
  firstStage_test .status mask _ busy reach admitted fun b => by
    cases b
    · exact .inl ⟨false, fun _ => rfl⟩
    · exact .inr ⟨locals, fun _ => rfl⟩

/-- What a bus row that answers a next state is: the transaction, of the kind the command in hand issues at
its step, and that command's own use of the answer. -/
def BusRow (i : Instr) (s t : State) : Prop :=
  ∃ (x : Transaction) (c : Instr) (k : Nat) (st : Stage), c.isCommand = true ∧
    s.seq = .busy c k st.expects ∧ rowIssued s c k st.expects = some i ∧
    (transactionStages c)[k]? = some st ∧ st.issues x s = true ∧ x.refusal = none ∧
    decode (.bus x.kind) = .ok i ∧ t = st.perform x s

/-- SET_DT issues its write only for a year in range (R142). -/
theorem setDt_issues {y : Transaction} {st : Stage} (hst : setDtStages = [st])
    (h : st.move s = .issues y) :
    s.yearBase ≤ s.dtPort.year.toNat ∧ s.dtPort.year.toNat < s.yearBase + 200 := by
  cases hst
  by_contra hy
  have : s.dtPort.year.toNat < s.yearBase ∨ s.yearBase + 200 ≤ s.dtPort.year.toNat := by omega
  simp [writeStage, encodeDateTime, this] at h

/-- Each stage that issues transactions: it belongs to a command and issues the row rowIssued names. -/
theorem stage_row {c : Instr} {k : Nat} {st : Stage} {x : Transaction} {row : Instr}
    (hst : (transactionStages c)[k]? = some st) (ha : admission c s = none)
    (hi : st.issues x s = true) (hrow : decode (.bus x.kind) = .ok row) :
    c.isCommand = true ∧ rowIssued s c k st.expects = some row := by
  obtain ⟨hx, y, hm⟩ := issues_cases hi
  have one : ∀ {l : List Stage} {a : Stage}, l = [a] → l[k]? = some st → k = 0 ∧ st = a := by
    rintro l a rfl h
    cases k with
    | zero => exact ⟨rfl, by simpa using h.symm⟩
    | succ k => simp at h
  have two : ∀ {l : List Stage} {a b : Stage}, l = [a, b] → l[k]? = some st →
      (k = 0 ∧ st = a) ∨ (k = 1 ∧ st = b) := by
    rintro l a b rfl h
    match k with
    | 0 => exact .inl ⟨rfl, by simpa using h.symm⟩
    | 1 => exact .inr ⟨rfl, by simpa using h.symm⟩
    | k + 2 => simp at h
  cases c <;> first
    | (simp [transactionStages] at hst; done)
    | (obtain ⟨rfl, rfl⟩ := one rfl hst
       cases x <;> first
        | (cases hx; done)
        | (cases hrow; exact ⟨rfl, rfl⟩)
        | (cases hrow; exact ⟨rfl, if_pos (admitDateTime_none.mp ha)⟩)
        | (cases hrow; exact ⟨rfl, if_pos (admitPinMode_none.mp ha)⟩)
        | (cases hrow
           refine ⟨rfl, if_pos ?_⟩
           simp [admitDateTime_none.mp ha, setDt_issues rfl hm]))
    | (obtain ⟨rfl, rfl⟩ | ⟨rfl, rfl⟩ := two rfl hst <;> cases x <;> first
        | (cases hx; done)
        | (cases hrow; exact ⟨rfl, rfl⟩))

/-- What a command makes of the answer of its transaction changes the sequencer and the result only. -/
theorem resume_frame {c : Instr} {k : Nat} {st : Stage} (hst : (transactionStages c)[k]? = some st)
    (e : TraceEntry) (s : State) :
    ∃ q r, st.resume e s = { s with seq := q, result := r } := by
  cases c <;>
    simp only [transactionStages, getDtStages, setDtStages, setAl1Stages, setAl2Stages, getTempStages,
      isRunningStages, enableOscStages, firedStages, setIntPinStages, dumpRegsStages] at hst <;>
    rcases k with _ | _ | k <;> simp at hst <;> subst hst <;>
    simp only [readStage, writeStage, testStage, clearStage] <;> (repeat' split) <;>
    exact ⟨_, _, rfl⟩

theorem busRow_of {x : Transaction} (hrow : decode (.bus x.kind) = .ok i)
    (h : transactInHand transactionStages x s = .next t) : BusRow i s t := by
  obtain ⟨c, k, st, hs, hst, hr, ha, hk, ht⟩ := transactInHand_next h
  obtain ⟨hc, hrow'⟩ := stage_row hst ha hk hrow
  exact ⟨x, c, k, st, hc, hs, hrow', hst, hk, hr, hrow, ht⟩

/-- Everything exec can do when it answers a next state: a first stage of a command, a second one, or a bus
row with a command in hand. -/
theorem exec_cases (h : exec i s = .next t) :
    (i.isCommand = true ∧ ∃ s₀, StartOf i s s₀ ∧ FirstStage i s₀ t) ∨
    (i.isCommand = true ∧ SecondStage i s t) ∨
    (i.isCommand = false ∧ BusRow i s t) := by
  cases i with
  | decDt =>
    obtain ⟨_, h⟩ := command_next h
    obtain ⟨s₀, rfl, hs⟩ := sequenceOne_cases rfl h
    exact .inl ⟨rfl, s₀, hs, firstStage_pure _ rfl (.inl rfl)⟩
  | decTemp =>
    obtain ⟨_, h⟩ := command_next h
    obtain ⟨s₀, rfl, hs⟩ := sequenceOne_cases rfl h
    exact .inl ⟨rfl, s₀, hs, firstStage_pure _ rfl (.inl rfl)⟩
  | encDt =>
    obtain ⟨_, h⟩ := command_next h
    obtain ⟨s₀, rfl, hs⟩ := sequenceOne_cases rfl h
    refine .inl ⟨rfl, s₀, hs, firstStage_pure _ ?_ ?_⟩ <;> unfold encodeDateTime <;> split
    · rfl
    · rfl
    · exact .inr ⟨rfl, .inl rfl⟩
    · exact .inl rfl
  | encAl1 m =>
    obtain ⟨_, h⟩ := command_next h
    obtain ⟨s₀, rfl, hs⟩ := sequenceOne_cases rfl h
    exact .inl ⟨rfl, s₀, hs, firstStage_pure _ rfl (.inl rfl)⟩
  | encAl2 m =>
    obtain ⟨_, h⟩ := command_next h
    obtain ⟨s₀, rfl, hs⟩ := sequenceOne_cases rfl h
    exact .inl ⟨rfl, s₀, hs, firstStage_pure _ rfl (.inl rfl)⟩
  | getDt =>
    obtain ⟨_, h⟩ := command_next (i := .getDt) (stages := getDtStages) h
    obtain ⟨s₀, rfl, hs⟩ := sequenceOne_cases rfl h
    exact .inl ⟨rfl, s₀, hs, firstStage_read _ _ _ _ rfl rfl⟩
  | setDt =>
    obtain ⟨_, h⟩ := command_next h
    obtain ⟨s₀, rfl, hs⟩ := sequenceOne_cases rfl h
    refine .inl ⟨rfl, s₀, hs, ?_⟩
    by_cases hy : s₀.dtPort.year.toNat < s₀.yearBase ∨ s₀.yearBase + 200 ≤ s₀.dtPort.year.toNat
    · exact .pure (errorOf .yearRange)
        (run_ends (by simp [writeStage, encodeDateTime, hy])) rfl (.inr ⟨rfl, .inr rfl⟩)
    · exact firstStage_write _ _ _ (by rw [encodeDateTime, if_neg hy]) rfl rfl
  | setAl1 m =>
    obtain ⟨_, h⟩ := command_next h
    obtain ⟨s₀, rfl, hs⟩ := sequenceOne_cases rfl h
    exact .inl ⟨rfl, s₀, hs, firstStage_write _ _ _ rfl rfl rfl⟩
  | setAl2 m =>
    obtain ⟨_, h⟩ := command_next h
    obtain ⟨s₀, rfl, hs⟩ := sequenceOne_cases rfl h
    exact .inl ⟨rfl, s₀, hs, firstStage_write _ _ _ rfl rfl rfl⟩
  | getTemp =>
    obtain ⟨_, h⟩ := command_next (i := .getTemp) (stages := getTempStages) h
    obtain ⟨s₀, rfl, hs⟩ := sequenceOne_cases rfl h
    exact .inl ⟨rfl, s₀, hs, firstStage_read _ _ _ _ rfl rfl⟩
  | isRunning =>
    obtain ⟨_, h⟩ := command_next (i := .isRunning) (stages := isRunningStages) h
    rcases sequenceTwo_cases rfl h with ⟨s₀, rfl, hs⟩ | ⟨rfl, hq⟩
    · refine .inl ⟨rfl, s₀, hs, firstStage_test _ _ _ (StartOf.seq hs) rfl rfl fun b => ?_⟩
      cases b
      · exact .inr ⟨rfl, fun _ => rfl⟩
      · exact .inl ⟨false, fun _ => rfl⟩
    · refine .inr (.inl ⟨rfl, .testBit 0x0E 0x80, { flag := some false }, ?_⟩)
      rw [run_issues (x := .testBit 0x0E 0x80) rfl]
      cases hd : s.draw.ok
      · exact ⟨errorOf .busFail, by rw [perform_fail _ _ hd, transact_fail _ hd]; rfl, rfl, hq, rfl,
          rfl, rfl, .inr rfl, by simp, fun _ => rfl⟩
      · exact ⟨succeeded (some (.bool _)), by rw [perform_ok _ _ hd, transact_ok _ hd]; rfl, rfl, hq,
          rfl, rfl, rfl, .inl rfl, by simp [succeeded], by simp⟩
  | enableOsc =>
    obtain ⟨_, h⟩ := command_next (i := .enableOsc) (stages := enableOscStages) h
    rcases sequenceTwo_cases rfl h with ⟨s₀, rfl, hs⟩ | ⟨rfl, hq⟩
    · refine .inl ⟨rfl, s₀, hs, ?_⟩
      have busy := StartOf.seq hs
      rw [run_issues (x := .changeBit 0x0E 0x80 .clear) rfl]
      cases hd : s₀.draw.ok
      · exact .ended (.changeBit 0x0E 0x80 .clear) (errorOf .busFail)
          (by rw [perform_fail _ _ hd, transact_fail _ hd]; rfl) rfl rfl rfl (.inr rfl)
          (fun _ => hd) (fun _ => rfl)
      · refine .goesOn (.changeBit 0x0E 0x80 .clear) Locals.empty ?_ rfl rfl rfl hd
        rw [perform_ok _ _ hd, transact_ok _ hd]
        simp [clearStage, State.issued, busy, Seq.advance]
    · refine .inr (.inl ⟨rfl, .changeBit 0x0F 0x80 .clear, Locals.empty, ?_⟩)
      rw [run_issues (x := .changeBit 0x0F 0x80 .clear) rfl]
      cases hd : s.draw.ok
      · exact ⟨errorOf .busFail, by rw [perform_fail _ _ hd, transact_fail _ hd]; rfl, rfl, hq, rfl,
          rfl, rfl, .inr rfl, by simp, fun _ => rfl⟩
      · exact ⟨succeeded none, by rw [perform_ok _ _ hd, transact_ok _ hd]; rfl, rfl, hq, rfl, rfl,
          rfl, .inl rfl, by simp [succeeded], by simp⟩
  | isAl1Set =>
    obtain ⟨_, h⟩ := command_next (i := .isAl1Set) (stages := (firedStages Config.a1fMask)) h
    rcases sequenceTwo_cases rfl h with ⟨s₀, rfl, hs⟩ | ⟨rfl, hq⟩
    · exact .inl ⟨rfl, s₀, hs, firstStage_flag _ _ (StartOf.seq hs) rfl rfl rfl⟩
    · exact .inr (.inl ⟨rfl, .changeBit 0x0F 0x01 .clear, { flag := some true },
        succeeded (some (.bool true)), rfl, rfl, hq, rfl, rfl, rfl, .inl rfl, by simp [succeeded],
        fun _ => rfl⟩)
  | isAl2Set =>
    obtain ⟨_, h⟩ := command_next (i := .isAl2Set) (stages := (firedStages Config.a2fMask)) h
    rcases sequenceTwo_cases rfl h with ⟨s₀, rfl, hs⟩ | ⟨rfl, hq⟩
    · exact .inl ⟨rfl, s₀, hs, firstStage_flag _ _ (StartOf.seq hs) rfl rfl rfl⟩
    · exact .inr (.inl ⟨rfl, .changeBit 0x0F 0x02 .clear, { flag := some true },
        succeeded (some (.bool true)), rfl, rfl, hq, rfl, rfl, rfl, .inl rfl, by simp [succeeded],
        fun _ => rfl⟩)
  | setIntPin p =>
    obtain ⟨_, h⟩ := command_next h
    obtain ⟨s₀, rfl, hs⟩ := sequenceOne_cases rfl h
    refine .inl ⟨rfl, s₀, hs, ?_⟩
    rw [run_issues (x := .writeMasked 0x0E 0x1F (argByte p)) rfl]
    cases hd : s₀.draw.ok
    · exact .ended (.writeMasked 0x0E 0x1F (argByte p)) (errorOf .busFail)
        (by rw [perform_fail _ _ hd, transact_fail _ hd]; rfl) rfl rfl rfl (.inr rfl)
        (fun _ => hd) (fun _ => rfl)
    · exact .ended (.writeMasked 0x0E 0x1F (argByte p)) (succeeded none)
        (by rw [perform_ok _ _ hd, transact_ok _ hd]; rfl) rfl rfl rfl (.inl rfl)
        (by simp [succeeded]) (by simp [hd])
  | dumpRegs =>
    obtain ⟨_, h⟩ := command_next (i := .dumpRegs) (stages := dumpRegsStages) h
    obtain ⟨s₀, rfl, hs⟩ := sequenceOne_cases rfl h
    exact .inl ⟨rfl, s₀, hs, firstStage_read _ _ _ _ rfl rfl⟩
  | readBlock => exact .inr (.inr ⟨rfl, busRow_of rfl h⟩)
  | writeBlock => exact .inr (.inr ⟨rfl, busRow_of rfl h⟩)
  | testBit => exact .inr (.inr ⟨rfl, busRow_of rfl h⟩)
  | changeBit => exact .inr (.inr ⟨rfl, busRow_of rfl h⟩)
  | writeMasked => exact .inr (.inr ⟨rfl, busRow_of rfl h⟩)

end Sys2Proof.Machine
end

