-- ==== Sys2Proof/Laws/PerInstr.lean ====
section
/-! SUPPORT. What every instruction's encoding looks like (spec/30_encoding.md R90, R92, R95), one lemma
an instruction. -/

/-- A command's word holds OP in bits 7:0, ARG in bits 12:8 and 0 in bits 15:13 (R90, R92); a transaction's
code is one of 0..4 (R95). -/
def Sys2Proof.Laws.EncodedFields.Statement (i : Sys2Proof.Instr) : Prop :=
  match Sys2Proof.encode i with
  | .command w =>
    i.isCommand = true ∧ Sys2Proof.opField w = i.opcode ∧ Sys2Proof.argField w = i.arg ∧
      Sys2Proof.rsvField w = 0
  | .bus k => i.isCommand = false ∧ k.toNat = i.opcode.toNat ∧ k.toNat ≤ 4

namespace Sys2Proof.Laws.EncodedFields

/-- The fields of a command word, for any ARG. -/
theorem fields_commandWord (op : BitVec 8) (arg : BitVec 5) :
    opField (commandWord op arg) = op ∧ argField (commandWord op arg) = arg ∧
      rsvField (commandWord op arg) = 0 := by
  refine ⟨?_, ?_, ?_⟩ <;>
  · apply BitVec.eq_of_getLsbD_eq
    intro j hj
    simp only [opField, argField, rsvField, commandWord, BitVec.getLsbD_extractLsb',
      BitVec.getLsbD_or, BitVec.getLsbD_shiftLeft, BitVec.getLsbD_setWidth, hj]
    grind

theorem of_command {i : Instr} (h : i.isCommand = true) : Statement i := by
  have hw := fields_commandWord i.opcode i.arg
  have he : encode i = .command (commandWord i.opcode i.arg) := by simp [encode, h]
  simp only [Statement, he]
  exact ⟨h, hw⟩

theorem decDt : Statement .decDt := of_command rfl
theorem decTemp : Statement .decTemp := of_command rfl
theorem encDt : Statement .encDt := of_command rfl
theorem encAl1 (m : BitVec 5) : Statement (.encAl1 m) := of_command rfl
theorem encAl2 (m : BitVec 5) : Statement (.encAl2 m) := of_command rfl
theorem getDt : Statement .getDt := of_command rfl
theorem setDt : Statement .setDt := of_command rfl
theorem setAl1 (m : BitVec 5) : Statement (.setAl1 m) := of_command rfl
theorem setAl2 (m : BitVec 5) : Statement (.setAl2 m) := of_command rfl
theorem getTemp : Statement .getTemp := of_command rfl
theorem isRunning : Statement .isRunning := of_command rfl
theorem enableOsc : Statement .enableOsc := of_command rfl
theorem isAl1Set : Statement .isAl1Set := of_command rfl
theorem isAl2Set : Statement .isAl2Set := of_command rfl
theorem setIntPin (p : BitVec 5) : Statement (.setIntPin p) := of_command rfl
theorem dumpRegs : Statement .dumpRegs := of_command rfl
theorem readBlock : Statement .readBlock := ⟨rfl, by decide, by decide⟩
theorem writeBlock : Statement .writeBlock := ⟨rfl, by decide, by decide⟩
theorem testBit : Statement .testBit := ⟨rfl, by decide, by decide⟩
theorem changeBit : Statement .changeBit := ⟨rfl, by decide, by decide⟩
theorem writeMasked : Statement .writeMasked := ⟨rfl, by decide, by decide⟩

end Sys2Proof.Laws.EncodedFields
end

