-- ==== Sys2Proof/Tests/Slice0.lean ====
section
/-! SUPPORT. Tests of the model. Every expected value is taken from spec/95_test_vectors.md (its row is named),
or from the rule named; the witnesses show, for each statement with hypotheses, states that meet them. -/

namespace Sys2Proof.Tests

open Sys2Proof Sys2Proof.Machine

/-! ### Small states -/

/-- A draw: nothing changed before, the transaction is ok. -/
def good : Draw := { env := [], ok := true, left := [] }

/-- A draw: nothing changed before, the transaction fails and leaves these bytes. -/
def bad (left : List Byte) : Draw := { env := [], ok := false, left := left }

/-- A date-time value, as 95_test_vectors writes it. -/
def dt (y : BitVec 16) (mo d h mi s w : Byte) : DateTimeValue :=
  { year := y, month := mo, dom := d, hour := h, minute := mi, second := s, dow := w }

/-- An Idle machine with some registers known and the coming draws fixed. -/
def chip (regs : Memory) (draws : List Draw) : State :=
  { State.reset with regs := regs, draws := draws }

/-- The same with a DT operand. -/
def withDt (v : DateTimeValue) (draws : List Draw) : State :=
  { State.reset with dtPort := v, draws := draws }

/-- The same with a BLK operand. -/
def withBlk (yearBase : Fin 65271) (b : List Byte) : State :=
  { State.reset with yearBase := yearBase, blkPort := b }

/-- A machine with a command in hand before its first transaction, and operands on the bus-master port. -/
def onBus (c : Instr) (o : BusOperands) (regs : Memory) (d : Draw) : State :=
  { State.reset with seq := .busy c 0 Locals.empty, busPort := o, regs := regs, draws := [d] }

/-- A machine before the second transaction of a command. -/
def second (i : Instr) (flag : Option Bool) (s : State) : State :=
  { s with seq := .busy i 1 { flag := flag } }

/-- A machine with one request on the command port. -/
def asking (w : BitVec 16) (b : List Byte) : State :=
  { State.reset with
    requests := [{ word := w, dt := State.resetDt, blk := b }] }

/-- What a next state shows: its result, registers and trace. -/
def shown : Out → Option (Option Result × Memory × List TraceEntry)
  | .next t => some (t.result, t.regs, t.trace)
  | _ => none

/-- The value of a next state's successful result. -/
def answer : Out → Option Value
  | .next t =>
    match t.result with
    | some { status := .success, cause := .none, value := v } => v
    | _ => none
  | _ => none

/-- The sequencer and the registers of a next state. -/
def going : Out → Option (Seq × Memory)
  | .next t => some (t.seq, t.regs)
  | _ => none

/-- The data of a next state's last trace entry. -/
def nextData : Out → Option BusData
  | .next t => t.trace.getLast?.bind TraceEntry.data
  | _ => none

/-- The reason of a refusal. -/
def refusal : Out → Option Refusal
  | .refused r => some r
  | _ => none

/-- Bus operands of a read. -/
def span (a : Byte) (n : Nat) : BusOperands :=
  { addr := a, len := n, mask := 0, dir := .set, value := 0, bytes := [] }

/-- Bus operands of a one-bit transaction. -/
def oneBit (a m : Byte) (d : BitDirection) : BusOperands :=
  { addr := a, len := 0, mask := m, dir := d, value := 0, bytes := [] }

/-! ### Well-formedness and decoding -/

/-- 95, B18 and the refusals table: 0x01 is no pin mode, 0x00 is. -/
theorem test_wellFormed_pin_mode :
    (Instr.setIntPin 0x01).wellFormed = false ∧ (Instr.setIntPin 0x00).wellFormed = true := by
  decide

/-- R92 and R95: the word of every row, written out from its encoding, decodes to its instruction. -/
theorem test_decode_every_row :
    decode (.command 0b0000000000000001) = .ok .decDt ∧
    decode (.command 0b0000000000000010) = .ok .decTemp ∧
    decode (.command 0b0000000000000011) = .ok .encDt ∧
    decode (.command 0b0001000000000100) = .ok (.encAl1 0b10000) ∧
    decode (.command 0b0000111100000101) = .ok (.encAl2 0b01111) ∧
    decode (.command 0b0000000000010000) = .ok .getDt ∧
    decode (.command 0b0000000000010001) = .ok .setDt ∧
    decode (.command 0b0000110000010010) = .ok (.setAl1 0b01100) ∧
    decode (.command 0b0000000100010011) = .ok (.setAl2 0b00001) ∧
    decode (.command 0b0000000000010100) = .ok .getTemp ∧
    decode (.command 0b0000000000100000) = .ok .isRunning ∧
    decode (.command 0b0000000000100001) = .ok .enableOsc ∧
    decode (.command 0b0000000000100010) = .ok .isAl1Set ∧
    decode (.command 0b0000000000100011) = .ok .isAl2Set ∧
    decode (.command 0b0000011100100100) = .ok (.setIntPin 0b00111) ∧
    decode (.command 0b0000000000110000) = .ok .dumpRegs ∧
    decode (.bus 0b000) = .ok .readBlock ∧
    decode (.bus 0b001) = .ok .writeBlock ∧
    decode (.bus 0b010) = .ok .testBit ∧
    decode (.bus 0b011) = .ok .changeBit ∧
    decode (.bus 0b100) = .ok .writeMasked := by
  decide

/-- 95, command-word refusals, and R95 for the kind codes 5 to 7. -/
theorem test_decode_refusals :
    decode (.command 0x0006) = .error .unassignedOp ∧
    decode (.command 0x0110) = .error .argNotZero ∧
    decode (.command 0x2010) = .error .reservedBits ∧
    decode (.command 0x0124) = .error .pinModeNotAdmitted ∧
    decode (.command 0x1F12) = .ok (.setAl1 0x1F) ∧
    decode (.bus 5) = .error .unassignedKind ∧ decode (.bus 6) = .error .unassignedKind ∧
    decode (.bus 7) = .error .unassignedKind := by
  decide

/-- 95, programs P1 and P3: the words of the assembly lines. -/
theorem test_encode_program_words :
    encode .setDt = .command 0x0011 ∧ encode (.setIntPin 0x07) = .command 0x0724 ∧
    encode (.setAl1 0x0C) = .command 0x0C12 ∧ encode .isAl2Set = .command 0x0023 := by
  decide

/-- R92: no two rows of the opcode map have one OP. -/
theorem test_opcodeMap_distinct : (opcodeMap.map Prod.fst).Nodup := by decide

/-- Log entry 20: the table's numbering, and a bus row's word above its three bits. -/
theorem test_decodeTableWord :
    decodeTableWord 16 0x0C12 = some (.setAl1 0x0C) ∧ decodeTableWord 8 4 = some .writeMasked ∧
    decodeTableWord 8 8 = none ∧ decodeTableWord 16 65536 = none := by
  decide

/-- Every row of the table runs as the first instruction after reset. -/
theorem test_every_row_runs_first :
    ([0x0001, 0x0002, 0x0003, 0x0004, 0x0005, 0x0010, 0x0011, 0x0012, 0x0013, 0x0014, 0x0020,
      0x0021, 0x0022, 0x0023, 0x0024, 0x0030].all fun w =>
      match step (State.reset.withFetchWord 16 w) with
      | .next _ => true
      | _ => false) = true ∧
    ([0, 1, 2, 3, 4].all fun w =>
      match step (State.reset.withFetchWord 8 w) with
      | .next _ => true
      | _ => false) = true := by
  decide

/-! ### Registers, tags and flags -/

/-- R25: the register map has nineteen addresses, 0x00 to 0x12, each once. -/
theorem test_register_map :
    [Reg.seconds, .minutes, .hours, .dayOfWeek, .dayOfMonth, .monthCentury, .year, .alarm1Seconds,
      .alarm1Minutes, .alarm1Hours, .alarm1Day, .alarm2Minutes, .alarm2Hours, .alarm2Day, .control,
      .status, .agingOffset, .temperatureHigh, .temperatureLow].map
      (fun r => (regAddr r).toNat) = List.range 19 := by
  decide

/-- R30, R31: the top bit of the control and status bytes and the fired flags. -/
theorem test_named_bits :
    eosc 0x80 = true ∧ eosc 0x7F = false ∧ osf 0x88 = true ∧ osf 0x7F = false ∧
    a1f 0x03 = true ∧ a1f 0x02 = false ∧ a2f 0x02 = true ∧ a2f 0x01 = false ∧
    pinField 0x98 = 0x18 := by
  decide

/-- R85: the fields each named tag compares, for alarm 1. -/
theorem test_alarm_modes :
    alarm1FieldsMatched 0x0F = [] ∧ alarm1FieldsMatched 0x0E = [.second] ∧
    alarm1FieldsMatched 0x0C = [.minute, .second] ∧
    alarm1FieldsMatched 0x08 = [.hour, .minute, .second] ∧
    alarm1FieldsMatched 0x00 = [.dom, .hour, .minute, .second] ∧
    alarm1FieldsMatched 0x10 = [.dow, .hour, .minute, .second] := by
  decide

/-- 95, BCD primitives. -/
theorem test_bcd :
    [0x00, 0x09, 0x10, 0x59, 0x99, 0x0A, 0x3F, 0xFF].map bcd2bin = [0, 9, 10, 59, 99, 10, 45, 165] ∧
    [0, 9, 23, 59, 31, 99].map bin2bcd = [0x00, 0x09, 0x23, 0x59, 0x31, 0x99] := by
  decide

/-! ### The codec -/

/-- 95, D1, D4, D7, D8 and D10. -/
theorem test_decDt_plain :
    decodeDateTime 2000 [0x30, 0x45, 0x13, 0x05, 0x15, 0x03, 0x24] = dt 2024 3 15 13 45 30 4 ∧
    decodeDateTime 2000 [0xB0, 0xC5, 0xD3, 0xFD, 0xD5, 0xE3, 0x24] = dt 2124 3 15 13 45 30 4 ∧
    decodeDateTime 2050 [0x00, 0x00, 0x00, 0x01, 0x01, 0x01, 0x10] = dt 2060 1 1 0 0 0 0 ∧
    decodeDateTime 2000 [0x00, 0x00, 0x72, 0x01, 0x01, 0x01, 0x00] = dt 2000 1 1 32 0 0 0 ∧
    decodeDateTime 2000 [0x00, 0x00, 0x00, 0x01, 0x01, 0x65, 0x9A] = dt 2100 5 1 0 0 0 0 := by
  decide

/-- 95, D2 and D3: every bit set, and no bit set. -/
theorem test_decDt_unchecked :
    answer (exec .decDt (withBlk 2000 [0xFF, 0xFF, 0xFF, 0xFF, 0xFF, 0xFF, 0xFF])) =
      some (.dateTime (dt 2265 25 45 45 85 85 6)) ∧
    answer (exec .decDt (withBlk 2000 [0, 0, 0, 0, 0, 0, 0])) =
      some (.dateTime (dt 2000 0 0 0 0 0 7)) := by
  decide

/-- 95, T1 to T7, T9 and T10. -/
theorem test_decTemp_quarters :
    [([0x19, 0x80] : List Byte), [0xF6, 0x40], [0x00, 0xC0], [0xFF, 0xC0], [0x80, 0xC0], [0x7F, 0xFF],
      [0x19, 0x3F], [0xFF, 0x00], [0x00, 0x40]].map decodeTemperature =
      [102, -41, 3, -7, -515, 511, 100, -4, 1] := by
  decide

/-- 95, T2, as a command; R93.5: a block of one byte is refused. -/
theorem test_decTemp_command :
    answer (exec .decTemp (withBlk 2000 [0xF6, 0x40])) = some (.temperature (-41)) ∧
    refusal (exec .decTemp (withBlk 2000 [0xF6])) = some .blkLength := by
  decide

/-- 95, E1, E5, E9 as commands, E10 and E12 for YEAR_BASE 2050. -/
theorem test_encDt_blocks :
    answer (exec .encDt (withDt (dt 2024 3 15 13 45 30 4) [])) =
      some (.bytes [0x30, 0x45, 0x13, 0x05, 0x15, 0x03, 0x24]) ∧
    answer (exec .encDt (withDt (dt 2150 7 4 12 0 0 3) [])) =
      some (.bytes [0x00, 0x00, 0x12, 0x04, 0x04, 0x87, 0x50]) ∧
    answer (exec .encDt (withDt (dt 2024 2 30 0 0 0 0) [])) =
      some (.bytes [0x00, 0x00, 0x00, 0x01, 0x30, 0x02, 0x24]) ∧
    encodeDateTime 2050 (dt 2060 1 1 0 0 0 0) = .ok [0x00, 0x00, 0x00, 0x01, 0x01, 0x01, 0x10] ∧
    encodeDateTime 2050 (dt 2150 1 1 0 0 0 0) = .ok [0x00, 0x00, 0x00, 0x01, 0x01, 0x81, 0x00] := by
  decide

/-- 95, E7, E8, E16 and E17: the year range, and the DT invariant. -/
theorem test_encDt_rejects :
    shown (exec .encDt (withDt (dt 1999 12 31 23 59 59 5) [])) = some (some yearRejected, [], []) ∧
    shown (exec .encDt (withDt (dt 2200 1 1 0 0 0 0) [])) = some (some yearRejected, [], []) ∧
    refusal (exec .encDt (withDt (dt 2024 3 15 24 0 0 0) [])) = some .dtInvariant ∧
    refusal (exec .encDt (withDt (dt 2024 3 15 13 45 30 7) [])) = some .dtInvariant := by
  refine ⟨?_, ?_, ?_, ?_⟩ <;> decide

/-- 95, A1, A3, A6, A8, A10 and A11. -/
theorem test_encAl1_blocks :
    encodeAlarm1 0x0F (dt 2024 3 15 13 45 30 4) = [0xB0, 0xC5, 0x93, 0x95] ∧
    encodeAlarm1 0x0C (dt 2024 3 15 13 45 30 4) = [0x30, 0x45, 0x93, 0x95] ∧
    encodeAlarm1 0x10 (dt 2024 3 15 13 45 30 4) = [0x30, 0x45, 0x13, 0x45] ∧
    encodeAlarm1 0x1F (dt 2024 3 15 13 45 30 4) = [0xB0, 0xC5, 0x93, 0xC5] ∧
    encodeAlarm1 0x10 (dt 2024 1 31 23 0 59 6) = [0x59, 0x00, 0x23, 0x47] ∧
    answer (exec (.encAl1 0x0F) (withDt (dt 2024 1 31 23 0 59 6) [])) =
      some (.bytes [0xD9, 0x80, 0xA3, 0xB1]) := by
  decide

/-- 95, A1, A2, A5 and A7. -/
theorem test_encAl2_blocks :
    encodeAlarm2 0x0F (dt 2024 3 15 13 45 30 4) = [0xC5, 0x93, 0x95] ∧
    encodeAlarm2 0x0E (dt 2024 3 15 13 45 30 4) = [0xC5, 0x93, 0x95] ∧
    encodeAlarm2 0x00 (dt 2024 3 15 13 45 30 4) = [0x45, 0x13, 0x15] ∧
    answer (exec (.encAl2 0x18) (withDt (dt 2024 3 15 13 45 30 4) [])) =
      some (.bytes [0x45, 0x13, 0xC5]) := by
  decide

/-! ### The block transfers -/

/-- The date-time block of 95, B19. -/
def block19 : Memory :=
  [(0, 0x30), (1, 0x45), (2, 0x13), (3, 0x05), (4, 0x15), (5, 0x03), (6, 0x24)]

/-- 95, B19. -/
theorem test_getDt :
    shown (exec .getDt (chip block19 [good])) =
      some (some (succeeded (some (.dateTime (dt 2024 3 15 13 45 30 4)))), block19,
        [⟨.readBlock 0x00 7, .ok, some (.bytes [0x30, 0x45, 0x13, 0x05, 0x15, 0x03, 0x24])⟩]) := by
  decide

/-- 95, B20. -/
theorem test_getDt_fails :
    shown (exec .getDt (chip block19 [bad []])) =
      some (some busFailed, block19, [⟨.readBlock 0x00 7, .fail, none⟩]) := by
  decide

/-- 95, B21: the year is rejected with no transaction. -/
theorem test_setDt_year :
    shown (exec .setDt (withDt (dt 1999 12 31 23 59 59 5) [])) =
      some (some yearRejected, [], []) := by
  decide

/-- 95, B22. -/
theorem test_setDt :
    shown (exec .setDt (withDt (dt 2199 12 31 23 59 59 6) [good])) =
      some (some (succeeded none),
        [(0, 0x59), (1, 0x59), (2, 0x23), (3, 0x07), (4, 0x31), (5, 0x92), (6, 0x99)],
        [⟨.writeBlock 0x00 [0x59, 0x59, 0x23, 0x07, 0x31, 0x92, 0x99], .ok, none⟩]) := by
  decide

/-- 95, B24. -/
theorem test_setAl1 :
    shown (exec (.setAl1 0x0C) (withDt (dt 2024 3 15 13 45 30 4) [good])) =
      some (some (succeeded none), [(7, 0x30), (8, 0x45), (9, 0x93), (10, 0x95)],
        [⟨.writeBlock 0x07 [0x30, 0x45, 0x93, 0x95], .ok, none⟩]) := by
  decide

/-- 95, B25; R176: a failed write leaves bytes in the addressed registers only. -/
theorem test_setAl2 :
    shown (exec (.setAl2 0x10) (withDt (dt 2024 3 15 13 45 30 4) [good])) =
      some (some (succeeded none), [(11, 0x45), (12, 0x13), (13, 0x45)],
        [⟨.writeBlock 0x0B [0x45, 0x13, 0x45], .ok, none⟩]) ∧
    shown (exec (.setAl2 0x10) (withDt (dt 2024 3 15 13 45 30 4) [bad [1, 2, 3, 4]])) =
      some (some busFailed, [(11, 1), (12, 2), (13, 3)],
        [⟨.writeBlock 0x0B [0x45, 0x13, 0x45], .fail, none⟩]) := by
  refine ⟨?_, ?_⟩ <;> decide

/-- 95, B26. -/
theorem test_getTemp :
    shown (exec .getTemp (chip [(0x11, 0xF6), (0x12, 0x40)] [good])) =
      some (some (succeeded (some (.temperature (-41)))), [(0x11, 0xF6), (0x12, 0x40)],
        [⟨.readBlock 0x11 2, .ok, some (.bytes [0xF6, 0x40])⟩]) := by
  decide

/-- 95, B27. -/
theorem test_dumpRegs :
    answer (exec .dumpRegs
      (chip ((List.range 19).map fun a => (a, BitVec.ofNat 8 (a + 1))) [good])) =
      some (.bytes ((List.range 19).map fun a => BitVec.ofNat 8 (a + 1))) := by
  decide

/-! ### Flag operations and the pin mode -/

/-- 95, B1; B3 up to its first transaction. -/
theorem test_isRunning_first :
    shown (exec .isRunning (chip [(0x0E, 0x00), (0x0F, 0x80)] [good])) =
      some (some (succeeded (some (.bool false))), [(0x0E, 0x00), (0x0F, 0x80)],
        [⟨.testBit 0x0F 0x80, .ok, some (.bit true)⟩]) ∧
    going (exec .isRunning (chip [(0x0E, 0x00), (0x0F, 0x00)] [good])) =
      some (.busy .isRunning 1 { flag := some false }, [(0x0E, 0x00), (0x0F, 0x00)]) := by
  decide

/-- 95, B3, B4 and B6, the second transaction. -/
theorem test_isRunning_second :
    answer (exec .isRunning (second .isRunning (some false) (chip [(0x0E, 0x00)] [good]))) =
      some (.bool true) ∧
    answer (exec .isRunning (second .isRunning (some false) (chip [(0x0E, 0x80)] [good]))) =
      some (.bool false) ∧
    shown (exec .isRunning (second .isRunning (some false) (chip [(0x0E, 0x80)] [bad []]))) =
      some (some busFailed, [(0x0E, 0x80)], [⟨.testBit 0x0E 0x80, .fail, none⟩]) := by
  decide

/-- 95, B7 and B8, the first transaction. -/
theorem test_enableOsc_first :
    going (exec .enableOsc (chip [(0x0E, 0x9C), (0x0F, 0x88)] [good])) =
      some (.busy .enableOsc 1 { flag := none }, [(0x0E, 0x1C), (0x0F, 0x88)]) ∧
    shown (exec .enableOsc (chip [(0x0E, 0x9C), (0x0F, 0x88)] [bad [0x55]])) =
      some (some busFailed, [(0x0E, 0x55), (0x0F, 0x88)],
        [⟨.changeBit 0x0E 0x80 .clear, .fail, none⟩]) := by
  decide

/-- 95, B7 and B9, the second transaction. -/
theorem test_enableOsc_second :
    shown (exec .enableOsc (second .enableOsc none (chip [(0x0E, 0x1C), (0x0F, 0x88)] [good]))) =
      some (some (succeeded none), [(0x0E, 0x1C), (0x0F, 0x08)],
        [⟨.changeBit 0x0F 0x80 .clear, .ok, none⟩]) ∧
    shown (exec .enableOsc
      (second .enableOsc none (chip [(0x0E, 0x1C), (0x0F, 0x88)] [bad [0x88]]))) =
      some (some busFailed, [(0x0E, 0x1C), (0x0F, 0x88)],
        [⟨.changeBit 0x0F 0x80 .clear, .fail, none⟩]) := by
  refine ⟨?_, ?_⟩ <;> decide

/-- 95, B10, B11 and B12, the first transaction. -/
theorem test_isAl1Set_first :
    answer (exec .isAl1Set (chip [(0x0F, 0x02)] [good])) = some (.bool false) ∧
    shown (exec .isAl1Set (chip [(0x0F, 0x02)] [bad []])) =
      some (some busFailed, [(0x0F, 0x02)], [⟨.testBit 0x0F 0x01, .fail, none⟩]) ∧
    going (exec .isAl1Set (chip [(0x0F, 0x03)] [good])) =
      some (.busy .isAl1Set 1 { flag := some true }, [(0x0F, 0x03)]) := by
  decide

/-- 95, B12 and B13, the second transaction: true, whether or not the clear succeeds. -/
theorem test_isAl1Set_second :
    shown (exec .isAl1Set (second .isAl1Set (some true) (chip [(0x0F, 0x03)] [good]))) =
      some (some (succeeded (some (.bool true))), [(0x0F, 0x02)],
        [⟨.changeBit 0x0F 0x01 .clear, .ok, none⟩]) ∧
    shown (exec .isAl1Set (second .isAl1Set (some true) (chip [(0x0F, 0x03)] [bad [0x7F]]))) =
      some (some (succeeded (some (.bool true))), [(0x0F, 0x7F)],
        [⟨.changeBit 0x0F 0x01 .clear, .fail, none⟩]) := by
  refine ⟨?_, ?_⟩ <;> decide

/-- 95, B14, its two transactions, and B15. -/
theorem test_isAl2Set :
    going (exec .isAl2Set (chip [(0x0F, 0x03)] [good])) =
      some (.busy .isAl2Set 1 { flag := some true }, [(0x0F, 0x03)]) ∧
    shown (exec .isAl2Set (second .isAl2Set (some true) (chip [(0x0F, 0x03)] [good]))) =
      some (some (succeeded (some (.bool true))), [(0x0F, 0x01)],
        [⟨.changeBit 0x0F 0x02 .clear, .ok, none⟩]) ∧
    answer (exec .isAl2Set (chip [(0x0F, 0x01)] [good])) = some (.bool false) := by
  decide

/-- R215: a second event between the two transactions is erased with the first one. -/
theorem test_isAl2Set_lost_event :
    shown (exec .isAl2Set (second .isAl2Set (some true)
      (chip [(0x0F, 0x00)] [{ env := [(0x0F, 0x03)], ok := true, left := [] }]))) =
      some (some (succeeded (some (.bool true))), [(0x0F, 0x01)],
        [⟨.changeBit 0x0F 0x02 .clear, .ok, none⟩]) := by
  decide

/-- 95, B16, B17 and B18. -/
theorem test_setIntPin :
    shown (exec (.setIntPin 0x18) (chip [(0x0E, 0x87)] [good])) =
      some (some (succeeded none), [(0x0E, 0x98)],
        [⟨.writeMasked 0x0E 0x1F 0x18, .ok, none⟩]) ∧
    going (exec (.setIntPin 0x07) (chip [(0x0E, 0xFC)] [good])) =
      some (.idle, [(0x0E, 0xE7)]) ∧
    refusal (exec (.setIntPin 0x01) (chip [] [good])) = some .pinMode := by
  decide

/-! ### The bus transactions -/

/-- 95, X1 and X2, issued by GET_TEMP. -/
theorem test_readBlock :
    shown (exec .readBlock (onBus .getTemp (span 0x11 2) [(0x11, 0x19), (0x12, 0x80)] good)) =
      some (some (succeeded (some (.temperature 102))), [(0x11, 0x19), (0x12, 0x80)],
        [⟨.readBlock 0x11 2, .ok, some (.bytes [0x19, 0x80])⟩]) ∧
    shown (exec .readBlock (onBus .getTemp (span 0x11 2) [(0x11, 0x19), (0x12, 0x80)] (bad []))) =
      some (some busFailed, [(0x11, 0x19), (0x12, 0x80)], [⟨.readBlock 0x11 2, .fail, none⟩]) := by
  refine ⟨?_, ?_⟩ <;> decide

/-- R170: while Idle the block issues no transaction; nor does it issue another kind than the command in
hand does. -/
theorem test_no_transaction_outside_command :
    exec .readBlock State.reset = .fault .notIssued ∧
    exec .readBlock (onBus .isRunning (span 0x11 2) [] good) = .fault .notIssued := by
  exact ⟨rfl, rfl⟩

/-- R142, R194: SET_DT in hand with a year out of range, and with a refused DT operand, issues no write. -/
theorem test_checks_before_transactions :
    exec .writeBlock { withDt (dt 2200 1 1 0 0 0 0) [good] with seq := .busy .setDt 0 Locals.empty } =
      .fault .notIssued ∧
    exec .writeBlock { withDt (dt 2024 3 15 24 0 0 0) [good] with seq := .busy .setDt 0 Locals.empty } =
      .refused .dtInvariant := by
  exact ⟨rfl, rfl⟩

/-- 95, X3; R51: one byte past the end is refused. -/
theorem test_writeBlock :
    shown (exec .writeBlock (onBus (.setAl2 0x10)
      { addr := 0x0B, len := 0, mask := 0, dir := .set, value := 0, bytes := [0x45, 0x13, 0x45] }
      [] good)) =
      some (some (succeeded none), [(0x0B, 0x45), (0x0C, 0x13), (0x0D, 0x45)],
        [⟨.writeBlock 0x0B [0x45, 0x13, 0x45], .ok, none⟩]) ∧
    refusal (exec .writeBlock (onBus (.setAl2 0x10)
      { addr := 0x12, len := 0, mask := 0, dir := .set, value := 0, bytes := [0x45, 0x13] } [] good)) =
      some .addressRange := by
  decide

/-- 95, X5, X6 and X12. -/
theorem test_testBit :
    nextData (exec .testBit (onBus .isRunning (oneBit 0x0F 0x80 .set) [(0x0F, 0x88)] good)) =
      some (.bit true) ∧
    nextData (exec .testBit (onBus .isAl1Set (oneBit 0x0F 0x01 .set) [(0x0F, 0x88)] good)) =
      some (.bit false) ∧
    refusal (exec .testBit (onBus .isRunning (oneBit 0x0F 0x03 .set) [] good)) =
      some .maskNotOneBit := by
  decide

/-- 95, X7 (the acknowledging clear of IS_AL1_SET), X8 and X9 (the step of ENABLE_OSC). -/
theorem test_changeBit :
    going (exec .changeBit (second .isAl1Set (some true)
      (onBus .isAl1Set (oneBit 0x0F 0x01 .clear) [(0x0F, 0x03)] good))) =
      some (.idle, [(0x0F, 0x02)]) ∧
    shown (exec .changeBit (onBus .enableOsc (oneBit 0x0E 0x80 .clear) [(0x0E, 0x1C)] good)) =
      some (none, [(0x0E, 0x1C)], [⟨.changeBit 0x0E 0x80 .clear, .ok, none⟩]) ∧
    going (exec .changeBit (onBus .enableOsc (oneBit 0x0E 0x80 .set) [(0x0E, 0x1C)] good)) =
      some (.busy .enableOsc 1 { flag := none }, [(0x0E, 0x9C)]) := by
  decide

/-- 95, X10 and X11. -/
theorem test_writeMasked :
    going (exec .writeMasked (onBus (.setIntPin 0x07)
      { addr := 0x0E, len := 0, mask := 0x1F, dir := .set, value := 0x07, bytes := [] }
      [(0x0E, 0x1C)] good)) = some (.idle, [(0x0E, 0x07)]) ∧
    going (exec .writeMasked (onBus (.setIntPin 0x07)
      { addr := 0x0E, len := 0, mask := 0x1F, dir := .set, value := 0xFF, bytes := [] }
      [(0x0E, 0x00)] good)) = some (.idle, [(0x0E, 0x1F)]) := by
  decide

/-! ### The command port, the sequencer and the assembler -/

/-- R22, R90: a step takes the request; R216: another command finds the block Busy and is stuck. -/
theorem test_step_takes_request :
    answer (step (asking 0x0002 [0x19, 0x80])) = some (.temperature 102) ∧
    exec .getDt (second .enableOsc none State.reset) = .fault .overlappingCommand := by
  exact ⟨by decide, rfl⟩

/-- The word and the DT operand of an assembled line. -/
def assembled (line : String) : Option (BitVec 16 × DateTimeValue) :=
  (assemble line).map fun r => (r.word, r.dt)

/-- 95, programs P1, P3 and P4: the words of the assembly lines. -/
theorem test_assemble_programs :
    assembled "SET_DT dt(2150,7,4,12,0,0,3)" = some (0x0011, dt 2150 7 4 12 0 0 3) ∧
    (assembled "SET_INT_PIN InterruptOnAlarm").map Prod.fst = some 0x0724 ∧
    assembled "SET_AL1 MinutesSeconds, dt(2024,3,15,13,45,30,4)" =
      some (0x0C12, dt 2024 3 15 13 45 30 4) ∧
    (assembled "IS_ALARM_SET 2").map Prod.fst = some 0x0023 := by
  decide

/-! ### Witnesses: states that meet the hypotheses of the statements -/

/-- The least and the greatest admitted DT operand for YEAR_BASE 2000. -/
def leastDt : DateTimeValue := dt 2000 1 1 0 0 0 0

/-- The greatest one. -/
def greatestDt : DateTimeValue := dt 2199 12 31 23 59 59 6

/-- Idle, with an admitted DT operand in the year range, at both ends, and a draw of each outcome: the
hypotheses of EncDtEncodesOrRejectsYear, EncodedDateTimeDecodesBack, EncAl1EncodesAlarm, EncAl2EncodesAlarm,
SetDtWritesDateTime, SetAl1WritesAlarm1, SetAl2WritesAlarm2 and SetCommandsWriteEncodedBlock. -/
theorem witness_admitted :
    (withDt leastDt [good]).seq = .idle ∧ (withDt greatestDt [bad []]).seq = .idle ∧
    dateTimeValid leastDt = true ∧ dateTimeValid greatestDt = true ∧
    (withDt leastDt [good]).yearBase.val ≤ leastDt.year.toNat ∧
    greatestDt.year.toNat < (withDt greatestDt [bad []]).yearBase.val + 200 ∧
    (withDt leastDt [good]).draw.ok = true ∧ (withDt greatestDt [bad []]).draw.ok = false := by
  decide

/-- An admitted DT operand one year below and one year above the range (EncDtEncodesOrRejectsYear,
SetDtWritesDateTime). -/
theorem witness_year_outside :
    dateTimeValid (dt 1999 12 31 23 59 59 5) = true ∧ dateTimeValid (dt 2200 1 1 0 0 0 0) = true ∧
    (dt 1999 12 31 23 59 59 5).year.toNat < State.reset.yearBase.val ∧
    State.reset.yearBase.val + 200 ≤ (dt 2200 1 1 0 0 0 0).year.toNat := by
  decide

theorem witness_DecodeInvertsEncode :
    (Instr.setIntPin 0x18).wellFormed = true ∧ (Instr.encAl1 0x1F).wellFormed = true ∧
    Instr.writeMasked.wellFormed = true := by
  decide

theorem witness_EncodeInvertsDecode :
    decode (.command 0x1F12) = .ok (.setAl1 0x1F) ∧ decode (.bus 4) = .ok .writeMasked := by
  decide

/-- Every clause of R93: an unassigned OP, RSV, ARG, a pin mode, a block of six and of eight bytes, of one
and of three; and a word that is none of these. -/
theorem witness_ReservedCommandWordsRefused :
    ∃ r r₁ r₂ r₃ r₄ : Request,
      (asking 0x0006 []).requests = [r] ∧ r.word = 0x0006 ∧
      (asking 0x2010 []).requests = [r₁] ∧ 0x2010 / 8192 ≠ 0 ∧
      (asking 0x0110 []).requests = [r₂] ∧ 0x0110 / 256 % 32 ≠ 0 ∧
      (asking 0x0001 [1, 2, 3, 4, 5, 6]).requests = [r₃] ∧ r₃.blk.length ≠ 7 ∧
      (asking 0x0002 [1, 2, 3]).requests = [r₄] ∧ r₄.blk.length ≠ 2 ∧
      (asking 0x0124 []).seq = .idle ∧
      0x0124 / 256 % 32 ∉ [0x07, 0x00, 0x08, 0x10, 0x18] ∧
      decode (.command 0x1F12) = .ok (.setAl1 0x1F) := by
  exact ⟨_, _, _, _, _, rfl, rfl, rfl, by decide, rfl, by decide, rfl, by decide, rfl, by decide, rfl,
    by decide, by decide⟩

theorem witness_StepRunsDecodedInstruction :
    (∃ r, (asking 0x0020 []).requests = [r] ∧ decode (.command r.word) = .ok .isRunning) ∧
    (asking 0x0020 []).seq = .idle ∧
    (second .enableOsc none State.reset).seq = .busy .enableOsc 1 { flag := none } ∧
    State.reset.seq = .idle ∧ State.reset.requests = [] := by
  exact ⟨⟨_, rfl, by decide⟩, rfl, rfl, rfl, rfl⟩

theorem witness_DecDtDecodesBlock :
    (withBlk 2000 [0, 0, 0, 0, 0, 0, 0]).seq = .idle ∧
    (withBlk 65270 [0xFF, 0xFF, 0xFF, 0xFF, 0xFF, 0xFF, 0xFF]).blkPort =
      [0xFF, 0xFF, 0xFF, 0xFF, 0xFF, 0xFF, 0xFF] := by
  exact ⟨rfl, rfl⟩

theorem witness_DecTempDecodesBlock :
    (withBlk 2000 [0x7F, 0xC0]).seq = .idle ∧ (withBlk 2000 [0x7F, 0xC0]).blkPort = [0x7F, 0xC0] ∧
    (withBlk 2000 [0x80, 0xC0]).blkPort = [0x80, 0xC0] ∧
    (-515 : Int) ≤ -4 ∧ (-4 : Int) ≤ 511 ∧ (-4 : Int) ≠ -1 := by
  exact ⟨rfl, rfl, rfl, by decide, by decide, by decide⟩

theorem witness_EncDtEncodesOrRejectsYear :
    dateTimeValid (dt 2099 12 31 23 59 59 6) = true ∧ dateTimeValid (dt 2100 1 1 0 0 0 0) = true ∧
    (dt 2099 12 31 23 59 59 6).year.toNat < State.reset.yearBase.val + 100 ∧
    State.reset.yearBase.val + 100 ≤ (dt 2100 1 1 0 0 0 0).year.toNat := by
  decide

/-- Each bound of the invariant, one outside, and the admitted extremes. -/
theorem witness_EncodersRefuseInvalidDateTime :
    [dt 2024 0 1 0 0 0 0, dt 2024 13 1 0 0 0 0, dt 2024 1 0 0 0 0 0, dt 2024 1 32 0 0 0 0,
      dt 2024 1 1 24 0 0 0, dt 2024 1 1 0 60 0 0, dt 2024 1 1 0 0 60 0, dt 2024 1 1 0 0 0 7].all
      (fun v => !dateTimeValid v) = true ∧
    dateTimeValid leastDt = true ∧ dateTimeValid greatestDt = true ∧
    (withDt leastDt []).seq = .idle := by
  decide

theorem witness_Alarm2ReadsNoSeconds :
    ∃ t, exec (.encAl2 0x10) (withDt (dt 2024 3 15 13 45 30 4) []) = .next t ∧
      (withDt (dt 1999 4 15 13 45 59 4) []).seq = .idle ∧
      dateTimeValid (dt 2024 3 15 13 45 30 4) = true ∧
      dateTimeValid (dt 1999 4 15 13 45 59 4) = true ∧
      (0x10 : BitVec 5).toNat / 2 = (0x11 : BitVec 5).toNat / 2 := by
  exact ⟨_, rfl, rfl, by decide, by decide, by decide⟩

theorem witness_SetThenGetReturnsDateTime :
    ∃ t, exec .setDt (withDt greatestDt [good, good]) = .next t ∧ t.draw.ok = true ∧
      ∀ a < 7, Memory.read t.found a = Memory.read t.regs a := by
  exact ⟨_, rfl, rfl, fun _ _ => rfl⟩

/-- The hypotheses of GetDtReadsDateTime, GetTempReadsTemperature, DumpRegsReadsAllRegisters
and GetCommandsAnswerDecodedBlock. -/
theorem witness_block_reads :
    (chip block19 [good]).seq = .idle ∧ (chip block19 [good]).draw.ok = true ∧
    (chip block19 [bad []]).draw.ok = false := by
  exact ⟨rfl, rfl, rfl⟩

/-- IS_RUNNING: a failed test; OSF set; OSF clear with each outcome of the second test. -/
theorem witness_IsRunningTestsBothFlags :
    (chip [(0x0F, 0x80)] [bad []]).draw.ok = false ∧
    (Memory.read (chip [(0x0F, 0x80)] [good]).found 0x0F &&& Config.osfMask != 0) = true ∧
    (Memory.read (chip [(0x0F, 0x7F)] [good, good]).found 0x0F &&& Config.osfMask != 0) = false ∧
    (∃ t, exec .isRunning (chip [(0x0F, 0x7F)] [good, good]) = .next t ∧ t.draw.ok = true) ∧
    (∃ t, exec .isRunning (chip [(0x0F, 0x7F)] [good, bad []]) = .next t ∧ t.draw.ok = false) := by
  exact ⟨rfl, by decide, by decide, ⟨_, rfl, rfl⟩, ⟨_, rfl, rfl⟩⟩

/-- ENABLE_OSC: a failed first clear; a first clear with each outcome of the second one. -/
theorem witness_EnableOscClearsEoscThenOsf :
    (chip [(0x0E, 0x80)] [bad [0xFF]]).draw.ok = false ∧
    (∃ t, exec .enableOsc (chip [(0x0E, 0x80)] [good, good]) = .next t ∧ t.draw.ok = true) ∧
    (∃ t, exec .enableOsc (chip [(0x0E, 0x80)] [good, bad []]) = .next t ∧ t.draw.ok = false) := by
  exact ⟨rfl, ⟨_, rfl, rfl⟩, ⟨_, rfl, rfl⟩⟩

/-- IS_AL1_SET: a failed test, a clear flag, a set flag with each outcome of the acknowledging clear. -/
theorem witness_IsAl1SetReadsAndAcknowledges :
    (chip [] [bad []]).draw.ok = false ∧
    (Memory.read (chip [(0x0F, 0xFE)] [good]).found 0x0F &&& Config.a1fMask != 0) = false ∧
    (Memory.read (chip [(0x0F, 0x01)] [good]).found 0x0F &&& Config.a1fMask != 0) = true ∧
    (∃ t, exec .isAl1Set (chip [(0x0F, 0x01)] [good, good]) = .next t ∧ t.draw.ok = true) ∧
    (∃ t, exec .isAl1Set (chip [(0x0F, 0x01)] [good, bad []]) = .next t ∧ t.draw.ok = false) := by
  exact ⟨rfl, by decide, by decide, ⟨_, rfl, rfl⟩, ⟨_, rfl, rfl⟩⟩

/-- The same for IS_AL2_SET. -/
theorem witness_IsAl2SetReadsAndAcknowledges :
    (chip [] [bad []]).draw.ok = false ∧
    (Memory.read (chip [(0x0F, 0xFD)] [good]).found 0x0F &&& Config.a2fMask != 0) = false ∧
    (Memory.read (chip [(0x0F, 0x02)] [good]).found 0x0F &&& Config.a2fMask != 0) = true ∧
    (∃ t, exec .isAl2Set (chip [(0x0F, 0x02)] [good, good]) = .next t ∧ t.draw.ok = true) ∧
    (∃ t, exec .isAl2Set (chip [(0x0F, 0x02)] [good, bad []]) = .next t ∧ t.draw.ok = false) := by
  exact ⟨rfl, by decide, by decide, ⟨_, rfl, rfl⟩, ⟨_, rfl, rfl⟩⟩

theorem witness_SetIntPinWritesPinField :
    (0x01 : BitVec 5) ∉ Config.intPinModes ∧ (0x18 : BitVec 5) ∈ Config.intPinModes ∧
    (chip [(0x0E, 0xFF)] [good]).seq = .idle ∧ (chip [(0x0E, 0xFF)] [good]).draw.ok = true ∧
    (chip [(0x0E, 0xFF)] [bad []]).draw.ok = false := by
  exact ⟨by decide, by decide, rfl, rfl, rfl⟩

/-- The bus transactions at the last register, with each command that issues them in hand: READ_BLOCK and
WRITE_BLOCK up to it, a one-bit mask on bit 7, any mask, with a draw of each outcome (ReadBlockReturnsBytes,
WriteBlockStoresBytes, TestBitReturnsOneBit, ChangeBitChangesOneBit, WriteMaskedWritesSelectedBits). -/
theorem witness_bus_transactions :
    let o : BusOperands :=
      { addr := 0x12, len := 1, mask := 0x80, dir := .set, value := 0xFF, bytes := [0x55] }
    (onBus .dumpRegs o [] good).seq = .busy .dumpRegs 0 Locals.empty ∧
    rowIssued (onBus .dumpRegs o [] good) .dumpRegs 0 Locals.empty = some .readBlock ∧
    rowIssued State.reset .setDt 0 Locals.empty = some .writeBlock ∧
    rowIssued State.reset .isRunning 0 Locals.empty = some .testBit ∧
    rowIssued State.reset .isRunning 1 { flag := some false } = some .testBit ∧
    rowIssued State.reset .enableOsc 1 Locals.empty = some .changeBit ∧
    rowIssued State.reset .isAl2Set 1 { flag := some true } = some .changeBit ∧
    rowIssued State.reset (.setIntPin 0x18) 0 Locals.empty = some .writeMasked ∧
    1 ≤ o.len ∧ o.addr.toNat + o.len ≤ 0x13 ∧
    o.addr.toNat + o.bytes.length ≤ 0x13 ∧ o.addr.toNat < 0x13 ∧ o.mask = BitVec.ofNat 8 (2 ^ 7) ∧
    (onBus .dumpRegs o [] good).draw.ok = true ∧ (onBus .dumpRegs o [] (bad [])).draw.ok = false := by
  decide

/-- GET_DT and GET_TEMP in hand with a read of the length each decodes (ReadBlockReturnsBytes). -/
theorem witness_read_lengths :
    rowIssued State.reset .getDt 0 Locals.empty = some .readBlock ∧ (span 0x0C 7).len = 7 ∧
    (span 0x0C 7).addr.toNat + (span 0x0C 7).len ≤ 0x13 ∧
    rowIssued State.reset .getTemp 0 Locals.empty = some .readBlock ∧ (span 0x00 2).len = 2 := by
  decide

/-- A command's transaction, its first and its second one. -/
theorem witness_CommandsIssueBusRows :
    (∃ t e, exec .getDt (chip block19 [good]) = .next t ∧
      t.trace = (chip block19 [good]).trace ++ [e]) ∧
    (∃ t e, exec .enableOsc (second .enableOsc none (chip [(0x0F, 0x80)] [bad []])) = .next t ∧
      t.trace = (second .enableOsc none (chip [(0x0F, 0x80)] [bad []])).trace ++ [e]) := by
  exact ⟨⟨_, _, rfl, rfl⟩, ⟨_, _, rfl, rfl⟩⟩

/-- An Idle machine, a bus row that runs, and steps that issue a transaction from Idle and while Busy. -/
theorem witness_TransactionsBelongToCommands :
    State.reset.seq = .idle ∧ Instr.testBit.isCommand = false ∧
    (∃ t, exec .testBit (onBus .isRunning (oneBit 0x0F 0x80 .set) [(0x0F, 0x88)] good) = .next t) ∧
    (∃ t e, step { asking 0x0014 [] with draws := [good] } = .next t ∧ t.trace = [] ++ [e]) ∧
    (∃ t e, step (second .enableOsc none (chip [(0x0F, 0x80)] [good])) = .next t ∧
      t.trace = [] ++ [e]) := by
  exact ⟨rfl, rfl, ⟨_, rfl⟩, ⟨_, _, rfl, rfl⟩, ⟨_, _, rfl, rfl⟩⟩

theorem witness_PlacedRowRunsNext :
    decode (.command 0x0724) = .ok (.setIntPin 0x07) ∧ decode (.bus 0) = .ok .readBlock ∧
    decode (.bus 4) = .ok .writeMasked := by
  decide

/-- Every clause of a refused transaction: no byte, one byte past the end, an address past the end, a mask
of no bit and one of two. -/
theorem witness_IllegalTransactionsRefused :
    (onBus .isRunning (oneBit 0x12 0x03 .set) [] good).seq = .busy .isRunning 0 Locals.empty ∧
    (oneBit 0x00 0 .set).len = 0 ∧ 0x13 < (0x12 : Byte).toNat + (span 0x12 2).len ∧
    0x13 < (0x12 : Byte).toNat + [(1 : Byte), 2].length ∧ 0x13 ≤ (0x13 : Byte).toNat ∧
    (∀ k < 8, (oneBit 0x12 0x00 .set).mask ≠ BitVec.ofNat 8 (2 ^ k)) ∧
    (∀ k < 8, (oneBit 0x12 0x03 .set).mask ≠ BitVec.ofNat 8 (2 ^ k)) := by
  decide

theorem witness_TransactionsIdempotent :
    let s := { onBus .enableOsc (oneBit 0x0F 0x80 .clear) [(0x0F, 0xFF)] good with
      draws := [good, good] }
    ∃ t u, exec .changeBit s = .next t ∧ exec .changeBit { t with seq := s.seq } = .next u ∧
      s.draw.ok = true ∧ t.draw.ok = true ∧ t.draw.env = [] := by
  exact ⟨_, _, rfl, rfl, rfl, rfl, rfl⟩

/-- A next state with no transaction, and one with a failed one. -/
theorem witness_RegistersChangeOnlyWhereStored :
    (∃ t, exec .encDt (withDt leastDt []) = .next t ∧ t.trace = (withDt leastDt []).trace) ∧
    (∃ t e, exec .setDt (withDt leastDt [bad [1]]) = .next t ∧
      t.trace = (withDt leastDt [bad [1]]).trace ++ [e] ∧ e.outcome = .fail) := by
  exact ⟨⟨_, rfl, rfl⟩, ⟨_, _, rfl, rfl, rfl⟩⟩

/-- Steps from states of the invariant: a request taken, and the second transaction of a command (also the
hypothesis of InvariantStatesNeverStuck). -/
theorem witness_StepKeepsInvariant :
    (∃ t, step { asking 0x0010 [] with regs := block19, draws := [good] } = .next t) ∧
    Inv { asking 0x0010 [] with regs := block19, draws := [good] } ∧
    Inv (second .isAl1Set (some true) (chip [(0x0F, 0x03)] [good])) ∧
    (∃ t, step (second .isAl1Set (some true) (chip [(0x0F, 0x03)] [good])) = .next t) := by
  exact ⟨⟨_, rfl⟩, by decide, by decide, ⟨_, rfl⟩⟩

/-- A command done, and one before its second transaction. -/
theorem witness_CommandsEndWithinTwoTransactions :
    (∃ t, exec .isRunning (chip [(0x0F, 0x80)] [good]) = .next t ∧ t.seq = .idle) ∧
    (∃ t l, exec .isRunning (chip [(0x0F, 0x00)] [good]) = .next t ∧
      t.seq = .busy .isRunning 1 l) ∧
    Instr.isRunning.isCommand = true := by
  exact ⟨⟨_, rfl, rfl⟩, ⟨_, _, rfl, rfl⟩, rfl⟩

/-- A step with a transaction, and one without. -/
theorem witness_TraceGrowsByOneEntry :
    (∃ t, step { asking 0x0014 [] with draws := [good] } = .next t ∧
      t.trace.length = 1) ∧
    (∃ t, step (asking 0x0003 []) = .next t ∧ t.trace = []) := by
  exact ⟨⟨_, rfl, rfl⟩, ⟨_, rfl, rfl⟩⟩

theorem witness_CommandsReachOnlyTheirRegisters :
    ∃ t e, exec (.setAl2 0x10) (withDt leastDt [good]) = .next t ∧
      t.trace = (withDt leastDt [good]).trace ++ [e] := by
  exact ⟨_, _, rfl, rfl⟩

theorem witness_YearBaseNeverChanges :
    ∃ t, step { asking 0x0030 [] with draws := [bad []] } = .next t := by
  exact ⟨_, rfl⟩

theorem witness_ExecKeepsPorts :
    (∃ t, exec .getTemp (chip [] [bad []]) = .next t) ∧
    (∃ t, exec .writeMasked (onBus (.setIntPin 0x00) (oneBit 0x0E 0x1F .set) [] (bad [])) =
      .next t) := by
  exact ⟨⟨_, rfl⟩, ⟨_, rfl⟩⟩

/-- Two Errors with different causes. -/
theorem witness_ErrorCausesHiddenFromCaller :
    (∃ t, exec .encDt (withDt (dt 1999 12 31 23 59 59 5) []) = .next t ∧ t.seq = .idle ∧
      t.result = some yearRejected ∧ yearRejected.status = .error) ∧
    (∃ t, exec .getDt (chip [] [bad []]) = .next t ∧ t.seq = .idle ∧ t.result = some busFailed ∧
      busFailed.status = .error) := by
  exact ⟨⟨_, rfl, rfl, rfl, rfl⟩, ⟨_, rfl, rfl, rfl, rfl⟩⟩

/-- A command that ends with YEAR_RANGE, one with BUS_FAIL, a decoder and an alarm encoder. -/
theorem witness_CausesByCommand :
    (∃ t, exec .setDt (withDt (dt 2200 1 1 0 0 0 0) []) = .next t ∧ t.seq = .idle ∧
      t.result = some yearRejected) ∧
    (∃ t, exec .setDt (withDt leastDt [bad []]) = .next t ∧ t.seq = .idle ∧
      t.result = some busFailed) ∧
    (∃ t r, exec .decTemp (withBlk 2000 [0x19, 0x80]) = .next t ∧ t.seq = .idle ∧
      t.result = some r) ∧
    (∃ t r, exec (.encAl1 0x1F) (withDt leastDt []) = .next t ∧ t.seq = .idle ∧
      t.result = some r) := by
  exact ⟨⟨_, rfl, rfl, rfl⟩, ⟨_, rfl, rfl, rfl⟩, ⟨_, _, rfl, rfl, rfl⟩, ⟨_, _, rfl, rfl, rfl⟩⟩

/-- A failed transaction of each kind: one that ends a command, and a failed acknowledging clear. -/
theorem witness_FailedTransactionEndsCommand :
    (∃ t e, exec .getTemp (chip [] [bad []]) = .next t ∧
      t.trace = (chip [] [bad []]).trace ++ [e] ∧ e.outcome = .fail) ∧
    (∃ t e, exec .isAl2Set (second .isAl2Set (some true) (chip [] [bad []])) = .next t ∧
      t.trace = (second .isAl2Set (some true) (chip [] [bad []])).trace ++ [e] ∧
      e.outcome = .fail) ∧
    (second .isAl2Set (some true) (chip [] [bad []])).seq = .busy .isAl2Set 1 { flag := some true } := by
  exact ⟨⟨_, _, rfl, rfl, rfl⟩, ⟨_, _, rfl, rfl, rfl⟩, rfl⟩

/-- A next state, and a refusal. -/
theorem witness_EarlierResultsNotVisible :
    (∃ t, exec .getDt { chip block19 [good] with result := some busFailed } = .next t ∧
      t.seq = .idle) ∧
    exec .encDt (withDt (dt 2024 3 15 24 0 0 0) []) = .refused .dtInvariant ∧
    Instr.getDt.isCommand = true := by
  exact ⟨⟨_, rfl, rfl⟩, rfl, rfl⟩

/-- An environment change at each end of the register file, twice at one address, outside it, and none; a
listed draw and the free one. -/
theorem witness_TransactionsFindEnvironmentChanges :
    let d : Draw := { env := [(0x12, 1), (0x13, 2), (0x12, 3)], ok := true, left := [] }
    let s := { State.reset with draws := [d] }
    s.draw.env = [(0x12, 1), (0x13, 2)] ++ (0x12, 3) :: [] ∧
    (∀ w : Byte, (0x12, w) ∉ ([] : List (Nat × Byte))) ∧
    (∀ v, ((0x00 : Nat), v) ∉ s.draw.env) ∧ Memory.read s.found 0x12 = 3 ∧
    (chip [] [good]).draw.env = [] ∧ State.reset.draws = [] := by
  refine ⟨rfl, by simp, by simp [State.draw], by decide, rfl, rfl⟩

/-- A refused operand of each kind, and a year one outside the range on each side. -/
theorem witness_ChecksPrecedeTransactions :
    ({ withDt (dt 2199 12 31 23 59 60 6) [] with seq := .busy .setDt 0 Locals.empty }).seq =
      .busy .setDt 0 Locals.empty ∧
    dateTimeValid (dt 2199 12 31 23 59 60 6) = false ∧ (0x01 : BitVec 5) ∉ Config.intPinModes ∧
    (withBlk 2000 [1, 2, 3, 4, 5, 6]).blkPort.length ≠ 7 ∧ (withBlk 2000 [1]).blkPort.length ≠ 2 ∧
    dateTimeValid (dt 2200 1 1 0 0 0 0) = true ∧ dateTimeValid (dt 1999 12 31 23 59 59 5) = true ∧
    State.reset.yearBase.val + 200 ≤ (dt 2200 1 1 0 0 0 0).year.toNat ∧
    (dt 1999 12 31 23 59 59 5).year.toNat < State.reset.yearBase.val := by
  decide

theorem witness_BusyBlockTakesNoOtherCommand :
    (second .enableOsc none (chip [] [good])).seq = .busy .enableOsc 1 { flag := none } ∧
    Instr.changeBit ≠ Instr.enableOsc ∧
    (∃ t, exec .changeBit (second .enableOsc none
      (onBus .enableOsc (oneBit 0x0F 0x80 .clear) [] good)) = .next t) ∧
    (∃ t, step (second .enableOsc none (chip [(0x0F, 0x80)] [good])) = .next t) := by
  exact ⟨rfl, by decide, ⟨_, rfl⟩, ⟨_, rfl⟩⟩

end Sys2Proof.Tests
end

section
/-! PROOF. What one step and one command can do, as the statements about the machine cite it: the equations of
`step` (spec/10_state.md R22), the stages of every command in one table, and the moves of a command. -/

namespace Sys2Proof.Machine

variable {s t : State} {i : Instr}

/-! ### The equations of a step -/

/-- While Busy, the step is the command in hand. -/
theorem step_busy {k : Nat} {l : Locals} (hs : s.seq = .busy i k l) : step s = exec i s := by
  simp [step, hs]

/-- While Idle with no request, the step changes nothing (log entry 7). -/
theorem step_idle_empty (hs : s.seq = .idle) (hr : s.requests = []) : step s = .next s := by
  simp [step, State.takeRequest, hs, hr]

/-- While Idle, the step runs the instruction the oldest request decodes to. -/
theorem step_idle_accepts {r : Request} {rest : List Request} (hs : s.seq = .idle)
    (hr : s.requests = r :: rest) (hi : decode (.command r.word) = .ok i) :
    step s = exec i { s with requests := rest, dtPort := r.dt, blkPort := r.blk } := by
  simp [step, State.takeRequest, hs, hr, hi]

/-- While Idle, a request whose word the decoder rejects is refused (R93). -/
theorem step_idle_rejects {r : Request} {rest : List Request} {q : WordReject} (hs : s.seq = .idle)
    (hr : s.requests = r :: rest) (hq : decode (.command r.word) = .error q) :
    step s = .refused (.word q) := by
  simp [step, State.takeRequest, hs, hr, hq]

/-- A word on the command port decodes to a command only (R92). -/
theorem isCommand_of_decode_command {w : BitVec 16} (h : decode (.command w) = .ok i) :
    i.isCommand = true := by
  obtain ⟨_, hop⟩ := decodeCommand_ok h
  exact (decodeOp_ok hop).1

/-- The instruction `i` a step of `s` runs, and the state `s₀` it runs it in: the command in hand, or the one
the oldest request asks for with the request's operands on the ports. -/
inductive StepRuns (s : State) (i : Instr) : State → Prop
  | inHand {k : Nat} {l : Locals} (busy : s.seq = .busy i k l) : StepRuns s i s
  | accepted {r : Request} {rest : List Request} (idle : s.seq = .idle)
      (oldest : s.requests = r :: rest) (word : decode (.command r.word) = .ok i) :
      StepRuns s i { s with requests := rest, dtPort := r.dt, blkPort := r.blk }

/-- Everything a step can be: nothing, the refusal of a word, or the run of an instruction. -/
theorem step_cases (s : State) :
    step s = .next s ∨ (∃ q, step s = .refused q) ∨
      ∃ i s₀, StepRuns s i s₀ ∧ step s = exec i s₀ := by
  cases hs : s.seq with
  | busy i k l => exact .inr (.inr ⟨i, s, .inHand hs, step_busy hs⟩)
  | idle =>
    cases hr : s.requests with
    | nil => exact .inl (step_idle_empty hs hr)
    | cons r rest =>
      cases hi : decode (.command r.word) with
      | error q => exact .inr (.inl ⟨_, step_idle_rejects hs hr hi⟩)
      | ok i => exact .inr (.inr ⟨i, _, .accepted hs hr hi, step_idle_accepts hs hr hi⟩)

/-- A step that answers a next state answered the same one, or ran an instruction. -/
theorem step_next_cases (h : step s = .next t) :
    t = s ∨ ∃ i s₀, StepRuns s i s₀ ∧ exec i s₀ = .next t := by
  rcases step_cases s with hn | ⟨q, hq⟩ | ⟨i, s₀, hrun, he⟩
  · rw [hn] at h
    cases h
    exact .inl rfl
  · rw [hq] at h
    cases h
  · exact .inr ⟨i, s₀, hrun, he ▸ h⟩

/-- What a step puts on the operand ports leaves the invariant's fields alone. -/
theorem StepRuns.inv {s₀ : State} (h : StepRuns s i s₀) (hs : Inv s) : Inv s₀ := by
  cases h with
  | inHand => exact hs
  | accepted => exact hs

/-- From a state of the invariant, a step runs commands only. -/
theorem StepRuns.isCommand {s₀ : State} (h : StepRuns s i s₀) (hs : Inv s) : i.isCommand = true := by
  cases h with
  | inHand busy =>
    obtain ⟨_, hseq, _, _⟩ := hs
    rw [busy, seqOk, Bool.and_eq_true] at hseq
    exact hseq.1
  | accepted _ _ word => exact isCommand_of_decode_command word

/-- An instruction a step runs finds the sequencer Idle, or itself in hand. -/
theorem StepRuns.seq {s₀ : State} (h : StepRuns s i s₀) :
    s₀.seq = .idle ∨ ∃ k l, s₀.seq = .busy i k l := by
  cases h with
  | inHand busy => exact .inr ⟨_, _, busy⟩
  | accepted idle => exact .inl idle

/-! ### The stages of every command -/

/-- The stages of each command, the codec's pure ones among them. -/
def commandStages : Instr → List Stage
  | .decDt => [pureStage fun s => succeeded (some (.dateTime (decodeDateTime s.yearBase s.blkPort)))]
  | .decTemp => [pureStage fun s => succeeded (some (.temperature (decodeTemperature s.blkPort)))]
  | .encDt => [pureStage fun s => blockResult (encodeDateTime s.yearBase s.dtPort)]
  | .encAl1 m => [pureStage fun s => succeeded (some (.bytes (encodeAlarm1 m s.dtPort)))]
  | .encAl2 m => [pureStage fun s => succeeded (some (.bytes (encodeAlarm2 m s.dtPort)))]
  | i => transactionStages i

/-- Every command is its stages behind its admission. -/
theorem exec_eq_command (hc : i.isCommand = true) (s : State) :
    exec i s = command i (commandStages i) s := by
  cases i with
  | readBlock | writeBlock | testBit | changeBit | writeMasked => cases hc
  | _ => rfl

/-- In every legal sequencer state of a command there is a stage that starts from its locals. -/
theorem commandStages_of_seqOk {k : Nat} {l : Locals} (h : seqOk (.busy i k l) = true) :
    ∃ st, (commandStages i)[k]? = some st ∧ st.expects = l := by
  simp only [seqOk, Bool.and_eq_true, Bool.or_eq_true, beq_iff_eq] at h
  obtain ⟨hc, ⟨rfl, rfl⟩ | ⟨rfl, hl⟩⟩ := h
  · cases i with
    | readBlock | writeBlock | testBit | changeBit | writeMasked => cases hc
    | _ => exact ⟨_, rfl, rfl⟩
  · cases i with
    | isRunning | enableOsc | isAl1Set | isAl2Set =>
      cases hl
      exact ⟨_, rfl, rfl⟩
    | _ => cases hl

/-- The state `s₀` in which a command that finds `s` runs its stage `k` with locals `l` (R22). -/
def StageStart (i : Instr) (k : Nat) (l : Locals) (s s₀ : State) : Prop :=
  (s.seq = .idle ∧ k = 0 ∧ l = Locals.empty ∧ s₀ = s.accept i) ∨ (s.seq = .busy i k l ∧ s₀ = s)

theorem StageStart.seq {k : Nat} {l : Locals} {s₀ : State} (h : StageStart i k l s s₀) :
    s₀.seq = .busy i k l := by
  rcases h with ⟨_, rfl, rfl, rfl⟩ | ⟨hs, rfl⟩
  · rfl
  · exact hs

/-- A move of the sequencer runs the stage it starts; the converse of `sequence_cases`. -/
theorem sequence_of_stageStart {stages : List Stage} {k : Nat} {st : Stage} {s₀ : State}
    (hst : stages[k]? = some st) (h : StageStart i k st.expects s s₀) :
    sequence i stages s = .next (st.run s₀) := by
  rcases h with ⟨hs, rfl, hl, rfl⟩ | ⟨hs, rfl⟩
  · simp [sequence_idle _ hs, runStage, hst, hl]
  · simp [sequence_busy _ hs, runStage, hst]

/-- Running a stage is never refused. -/
theorem runStage_ne_refused (stages : List Stage) (k : Nat) (l : Locals) (q : Refusal) :
    runStage stages k l s ≠ .refused q := by
  unfold runStage
  split
  · nofun
  · split <;> nofun

/-- A move of the sequencer is never refused. -/
theorem sequence_ne_refused (stages : List Stage) (q : Refusal) : sequence i stages s ≠ .refused q := by
  unfold sequence
  split
  · exact runStage_ne_refused _ _ _ _
  · split
    · exact runStage_ne_refused _ _ _ _
    · nofun

/-- What a command that answers a next state is: admitted, and the run of one of its stages. -/
theorem exec_next_iff (hc : i.isCommand = true) :
    exec i s = .next t ↔ admission i s = none ∧ ∃ k st s₀, (commandStages i)[k]? = some st ∧
      StageStart i k st.expects s s₀ ∧ t = st.run s₀ := by
  rw [exec_eq_command hc]
  constructor
  · intro h
    obtain ⟨ha, hq⟩ := command_next h
    obtain ⟨k, st, s₀, hst, ht, hs⟩ := sequence_cases hq
    exact ⟨ha, k, st, s₀, hst, hs, ht⟩
  · rintro ⟨ha, k, st, s₀, hst, hs, rfl⟩
    rw [command_admitted ha, sequence_of_stageStart hst hs]

/-- A command is refused exactly where its admission refuses it (R193). -/
theorem exec_refused_iff (hc : i.isCommand = true) {q : Refusal} :
    exec i s = .refused q ↔ admission i s = some q := by
  rw [exec_eq_command hc]
  constructor
  · intro h
    cases ha : admission i s with
    | none => exact absurd (command_admitted ha ▸ h) (sequence_ne_refused _ _)
    | some r =>
      rw [command_refused ha] at h
      cases h
      rfl
  · exact command_refused

/-- A command that finds the sequencer Idle, or itself in hand in a legal state, answers a next state where it is
admitted. -/
theorem exec_next_of_admitted (hc : i.isCommand = true)
    (hs : s.seq = .idle ∨ ∃ k l, s.seq = .busy i k l) (hok : seqOk s.seq = true)
    (ha : admission i s = none) : ∃ t, exec i s = .next t := by
  rcases hs with hs | ⟨k, l, hs⟩
  · obtain ⟨st, hst, hl⟩ :=
      commandStages_of_seqOk (i := i) (k := 0) (l := Locals.empty) (by simp [seqOk, hc])
    exact ⟨_, (exec_next_iff hc).mpr ⟨ha, 0, st, _, hst, .inl ⟨hs, rfl, hl, rfl⟩, rfl⟩⟩
  · rw [hs] at hok
    obtain ⟨st, hst, rfl⟩ := commandStages_of_seqOk hok
    exact ⟨_, (exec_next_iff hc).mpr ⟨ha, k, st, s, hst, .inr ⟨hs, rfl⟩, rfl⟩⟩

/-! ### The moves of a command -/

/-- What a command that answers a next state makes of the state it finds: the three ways a move of the sequencer
can end (R22). -/
inductive CommandMove (i : Instr) (s t : State) : Prop
  /-- It ends without a transaction, which only a first stage does. -/
  | pure (r : Result) (next : t = s.finish r) (legal : resultOk (some r) = true)
      (first : s.seq = .idle ∨ s.seq = .busy i 0 Locals.empty)
  /-- It ends with one transaction. -/
  | ended (m : Memory) (e : TraceEntry) (r : Result) (next : t = s.endedBy m e r)
      (legal : resultOk (some r) = true) (entry : traceOk [e] = true)
      (canonical : Memory.wf s.regs = true → Memory.wf m = true)
  /-- It stands before its second transaction, after its first one. -/
  | goesOn (m : Memory) (e : TraceEntry) (l : Locals) (next : t = s.goesOn m e i l)
      (locals : secondLocals i = some l) (entry : traceOk [e] = true)
      (canonical : Memory.wf s.regs = true → Memory.wf m = true)
      (first : s.seq = .idle ∨ s.seq = .busy i 0 Locals.empty)

/-- An admitted transaction leaves one legal trace entry and a canonical register file. -/
theorem transact_legal {x : Transaction} (hx : x.refusal = none) (s : State) :
    ∃ m e, (transact x s).2 = s.issued m e ∧ traceOk [e] = true ∧
      (Memory.wf s.regs = true → Memory.wf m = true) := by
  obtain ⟨m, e, he, rfl, hdata, hwf⟩ := transact_issued x s
  refine ⟨m, e, by rw [he], ?_, hwf⟩
  cases ho : e.outcome <;> simp [traceOk, hx, ho, hdata]

theorem StartOf.first {s₀ : State} (h : StartOf i s s₀) :
    s.seq = .idle ∨ s.seq = .busy i 0 Locals.empty := by
  rcases h with ⟨hs, _⟩ | ⟨hs, _⟩
  · exact .inl hs
  · exact .inr hs

/-- A first stage runs in a state that differs from the one the command finds in the sequencer alone, and every
move overwrites the sequencer. -/
theorem commandMove_of_firstStage {s₀ : State} (hs : StartOf i s s₀) (h : FirstStage i s₀ t) :
    CommandMove i s t := by
  have first := hs.first
  obtain rfl := hs.eq_with
  cases h with
  | pure r next legal _ => exact .pure r next legal first
  | ended x r next legal admitted _ _ _ _ =>
    obtain ⟨m, e, hm, entry, canonical⟩ := transact_legal admitted _
    rw [hm] at next
    exact .ended m e r next legal entry canonical
  | goesOn x l next locals admitted _ _ =>
    obtain ⟨m, e, hm, entry, canonical⟩ := transact_legal admitted _
    rw [hm] at next
    exact .goesOn m e l next locals entry canonical first

theorem commandMove_of_secondStage (h : SecondStage i s t) : CommandMove i s t := by
  obtain ⟨x, l, r, next, _, _, legal, admitted, _⟩ := h
  obtain ⟨m, e, hm, entry, canonical⟩ := transact_legal admitted s
  rw [hm] at next
  exact .ended m e r next legal entry canonical

/-- Everything a command that answers a next state can do. -/
theorem exec_command_cases (hc : i.isCommand = true) (h : exec i s = .next t) : CommandMove i s t := by
  rcases exec_cases h with ⟨_, s₀, hs, hfirst⟩ | ⟨_, hsecond⟩ | ⟨hbus, _⟩
  · exact commandMove_of_firstStage hs hfirst
  · exact commandMove_of_secondStage hsecond
  · rw [hc] at hbus
    cases hbus

/-- What an instruction that answers a next state leaves of the one it finds: no transaction, or the one it
issued; beside it only the sequencer and the result port can differ. -/
theorem exec_frame (h : exec i s = .next t) :
    (∃ q r, t = { s with seq := q, result := r }) ∨
      ∃ m e q r, t = { s.afterBus m e with seq := q, result := r } := by
  cases hc : i.isCommand with
  | true =>
    cases exec_command_cases hc h with
    | pure r next => exact .inl ⟨_, _, next⟩
    | ended m e r next => exact .inr ⟨m, e, _, _, next⟩
    | goesOn m e l next => exact .inr ⟨m, e, _, _, next⟩
  | false =>
    rcases exec_cases h with ⟨hc', _⟩ | ⟨hc', _⟩ | ⟨_, x, c, k, st, _, _, _, hst, _, hx, _, rfl⟩
    · simp [hc] at hc'
    · simp [hc] at hc'
    · obtain ⟨m, e, hm, _⟩ := transact_legal hx s
      obtain ⟨q, r, hr⟩ := resume_frame hst (transact x s).1 (transact x s).2
      rw [hm] at hr
      exact .inr ⟨m, e, q, r, by rw [Stage.perform, hm]; exact hr⟩

end Sys2Proof.Machine
end

section
/-! PROOF. The step and the state after construction (spec/10_state.md R22, R33). -/

namespace Sys2Proof.Machine

/-- Settles O5: the equations of `step`, one for each of its three clauses. -/
theorem stepRunsDecodedInstruction : Obligations.StepRunsDecodedInstruction :=
  ⟨fun _ _ _ _ hs hr hi => step_idle_accepts hs hr hi, fun _ _ _ _ hs => step_busy hs,
    fun _ hs hr => step_idle_empty hs hr⟩

/-- Construction lists no register, so each reads as its free content (R33). -/
theorem read_construct (yearBase : Fin 65271) (a : Nat) :
    Memory.read (State.construct yearBase).regs a = Config.powerOnByte a := rfl

/-- Settles O38: the fields of `State.construct`. -/
theorem constructionState : Obligations.ConstructionState :=
  ⟨fun yearBase => ⟨rfl, rfl, rfl, rfl, read_construct yearBase⟩, rfl⟩

/-- Every constructed machine meets the invariant, whatever its YEAR_BASE. -/
theorem inv_construct (yearBase : Fin 65271) : Inv (State.construct yearBase) := ⟨rfl, rfl, rfl, rfl⟩

/-- Settles O39: the reset state is a constructed one. -/
theorem constructionMeetsInvariant : Obligations.ConstructionMeetsInvariant :=
  ⟨inv_construct Config.defaultYearBase, inv_construct⟩

end Sys2Proof.Machine
end

section
/-! PROOF. The invariant: every move of a command keeps it, and in it no command is stuck (spec/10_state.md R22,
R23; spec/43_bus.md R170; spec/60_exceptions.md R190). -/

namespace Sys2Proof.Machine

variable {s t : State} {i : Instr}

theorem traceOk_append (tr : List TraceEntry) (e : TraceEntry) :
    traceOk (tr ++ [e]) = (traceOk tr && traceOk [e]) := by
  simp [traceOk]

/-- A command before its second transaction is a legal sequencer state. -/
theorem seqOk_second {l : Locals} (hc : i.isCommand = true) (hl : secondLocals i = some l) :
    seqOk (.busy i 1 l) = true := by
  simp [seqOk, hc, hl]

/-- Every move of a command keeps the invariant. -/
theorem CommandMove.inv (h : CommandMove i s t) (hc : i.isCommand = true) (hs : Inv s) : Inv t := by
  obtain ⟨hregs, hseq, hresult, htrace⟩ := hs
  cases h with
  | pure r next legal =>
    subst next
    exact ⟨hregs, rfl, legal, htrace⟩
  | ended m e r next legal entry canonical =>
    subst next
    exact ⟨canonical hregs, rfl, legal, (traceOk_append _ _).trans (by rw [htrace, entry]; rfl)⟩
  | goesOn m e l next locals entry canonical =>
    subst next
    exact ⟨canonical hregs, seqOk_second hc locals, hresult,
      (traceOk_append _ _).trans (by rw [htrace, entry]; rfl)⟩

/-- Settles O40: a step of such a state runs a command, and each of a command's moves keeps the invariant. -/
theorem stepKeepsInvariant : Obligations.StepKeepsInvariant := by
  intro s t hs h
  rcases step_next_cases h with rfl | ⟨i, s₀, hrun, he⟩
  · exact hs
  · have hc := hrun.isCommand hs
    exact (exec_command_cases hc he).inv hc (hrun.inv hs)

/-- Settles O41: the command a step runs is refused by its admission, or has a stage for the legal sequencer
state it finds. -/
theorem invariantStatesNeverStuck : Obligations.InvariantStatesNeverStuck := by
  intro s f hs h
  rcases step_cases s with hn | ⟨q, hq⟩ | ⟨i, s₀, hrun, he⟩
  · rw [hn] at h
    cases h
  · rw [hq] at h
    cases h
  · rw [he] at h
    have hc := hrun.isCommand hs
    obtain ⟨_, hok, _, _⟩ := hrun.inv hs
    cases ha : admission i s₀ with
    | some q =>
      rw [(exec_refused_iff hc).mpr ha] at h
      cases h
    | none =>
      obtain ⟨t, ht⟩ := exec_next_of_admitted hc hrun.seq hok ha
      rw [ht] at h
      cases h

/-- A command with a second transaction takes no operand, so nothing of it is refused. -/
theorem admission_of_secondLocals {l : Locals} (h : secondLocals i = some l) (s : State) :
    admission i s = none := by
  cases i with
  | isRunning | enableOsc | isAl1Set | isAl2Set => rfl
  | _ => cases h

/-- A command before its second transaction ends with it in the next step. -/
theorem step_second {l : Locals} (hc : i.isCommand = true) (hl : secondLocals i = some l)
    (hs : s.seq = .busy i 1 l) : ∃ m e r, step s = .next (s.endedBy m e r) := by
  have hok : seqOk s.seq = true := hs ▸ seqOk_second hc hl
  obtain ⟨u, hu⟩ :=
    exec_next_of_admitted hc (.inr ⟨1, l, hs⟩) hok (admission_of_secondLocals hl s)
  cases exec_command_cases hc hu with
  | ended m e r next => exact ⟨m, e, r, by rw [step_busy hs, hu, next]⟩
  | pure _ _ _ first => simp [hs] at first
  | goesOn _ _ _ _ _ _ _ first => simp [hs] at first

/-- Settles O42: a command that goes on stands in a legal sequencer state, where its second move ends it. -/
theorem commandsEndWithinTwoTransactions : Obligations.CommandsEndWithinTwoTransactions := by
  intro i s t hc _ h
  cases exec_command_cases hc h with
  | pure r next =>
    subst next
    exact .inl ⟨rfl, rfl, Nat.le_succ _⟩
  | ended m e r next =>
    subst next
    exact .inl ⟨rfl, rfl, by simp [State.endedBy, State.afterBus]⟩
  | goesOn m e l next locals =>
    subst next
    obtain ⟨m', e', r, hu⟩ := step_second (s := s.goesOn m e i l) hc locals rfl
    exact .inr ⟨l, _, rfl, by simp [State.goesOn, State.afterBus], hu, rfl, rfl,
      by simp [State.endedBy, State.goesOn, State.afterBus]⟩

end Sys2Proof.Machine
end

section
/-! PROOF. What every instruction leaves unchanged (spec/10_state.md R20, R29; spec/30_encoding.md R91). -/

namespace Sys2Proof.Machine

variable {s t : State} {i : Instr}

/-- An instruction issues no transaction and uses no draw, or one of each (R29; log entry 2). -/
theorem exec_trace (h : exec i s = .next t) :
    (t.trace = s.trace ∧ t.draws = s.draws ∧ t.drawCount = s.drawCount) ∨
      ∃ e, t.trace = s.trace ++ [e] ∧ t.draws = s.draws.tail ∧ t.drawCount = s.drawCount + 1 := by
  rcases exec_frame h with ⟨q, r, rfl⟩ | ⟨m, e, q, r, rfl⟩
  · exact .inl ⟨rfl, rfl, rfl⟩
  · exact .inr ⟨e, rfl, rfl, rfl⟩

/-- Settles O43: a step that runs an instruction only moves a request to the ports before it. -/
theorem traceGrowsByOneEntry : Obligations.TraceGrowsByOneEntry := by
  intro s t h
  rcases step_next_cases h with rfl | ⟨i, s₀, hrun, he⟩
  · exact .inl ⟨rfl, rfl, rfl⟩
  · have htrace := exec_trace he
    cases hrun with
    | inHand => exact htrace
    | accepted => exact htrace

/-- Settles O46: the frame of `exec`. -/
theorem execKeepsPorts : Obligations.ExecKeepsPorts := by
  intro i s t h
  rcases exec_frame h with ⟨q, r, rfl⟩ | ⟨m, e, q, r, rfl⟩
  · exact ⟨rfl, rfl, rfl, rfl, rfl⟩
  · exact ⟨rfl, rfl, rfl, rfl, rfl⟩

/-- Settles O45: the type bounds YEAR_BASE, and no instruction changes it. -/
theorem yearBaseNeverChanges : Obligations.YearBaseNeverChanges := by
  intro s t
  refine ⟨Nat.le_of_lt_succ s.yearBase.isLt, fun h => ?_⟩
  rcases step_next_cases h with rfl | ⟨i, s₀, hrun, he⟩
  · rfl
  · obtain ⟨hyear, _⟩ := execKeepsPorts i s₀ t he
    cases hrun with
    | inHand => exact hyear
    | accepted => exact hyear

end Sys2Proof.Machine
end

section
/-! PROOF. No command sees the result port or the trace (spec/10_state.md R21): no stage looks at them, so two runs
that differ in what earlier commands left there make the same moves. -/

namespace Sys2Proof.Machine

variable {s s₀ t : State} {i : Instr} {r : Option Result} {tr : List TraceEntry}

/-- `s` with another result and another trace left by earlier commands. -/
def State.withPast (s : State) (r : Option Result) (tr : List TraceEntry) : State :=
  { s with result := r, trace := tr }

/-- What two runs of one command share that differ in what earlier commands left. -/
structure SharesOutcome (t t' : State) : Prop where
  regs : t'.regs = t.regs
  seq : t'.seq = t.seq
  draws : t'.draws = t.draws
  result : t.seq = .idle → t'.result = t.result

theorem sharesOutcome_finish (s : State) (q : Result) :
    SharesOutcome (s.finish q) ((s.withPast r tr).finish q) := ⟨rfl, rfl, rfl, fun _ => rfl⟩

/-- While a command is in hand the result port is not yet its own. -/
theorem sharesOutcome_busy (hs : s.seq ≠ .idle) : SharesOutcome s (s.withPast r tr) :=
  ⟨rfl, rfl, rfl, fun h => absurd h hs⟩

theorem advance_ne_idle {q : Seq} (h : q ≠ .idle) : q.advance ≠ .idle := by
  cases q with
  | idle => exact absurd rfl h
  | busy => nofun

theorem keep_ne_idle {q : Seq} (h : q ≠ .idle) (b : Bool) : q.keep b ≠ .idle := by
  cases q with
  | idle => exact absurd rfl h
  | busy => nofun

theorem sharesOutcome_keepFlag (hs : s.seq ≠ .idle) (b : Bool) :
    SharesOutcome (s.keepFlag b) ((s.withPast r tr).keepFlag b) :=
  sharesOutcome_busy (s := s.keepFlag b) (keep_ne_idle hs b)

/-- A transaction answers the same whatever came before, and adds its entry to the trace it finds. -/
theorem transact_withPast (x : Transaction) (s : State) :
    transact x (s.withPast r tr) =
      ((transact x s).1, (transact x s).2.withPast r (tr ++ [(transact x s).1])) := rfl

/-- A use of a transaction's answer that does not look at the past. -/
def IgnoresPast (go : State → State) : Prop :=
  ∀ (s : State) (r : Option Result) (tr : List TraceEntry), s.seq ≠ .idle →
    SharesOutcome (go s) (go (s.withPast r tr))

/-- A stage that looks neither at the result port nor at the trace. -/
structure Stage.PastBlind (st : Stage) : Prop where
  move (s : State) (r : Option Result) (tr : List TraceEntry) : st.move (s.withPast r tr) = st.move s
  resume (e : TraceEntry) : IgnoresPast (st.resume e)

theorem ignoresPast_succeed (v : Option Value) : IgnoresPast fun s => s.succeed v :=
  fun s _ _ _ => sharesOutcome_finish s _

theorem ignoresPast_raise (c : Cause) : IgnoresPast fun s => s.raise c :=
  fun s _ _ _ => sharesOutcome_finish s _

theorem ignoresPast_keepFlag (b : Bool) : IgnoresPast fun s => s.keepFlag b :=
  fun _ _ _ hs => sharesOutcome_keepFlag hs b

theorem ignoresPast_id : IgnoresPast fun s => s := fun _ _ _ hs => sharesOutcome_busy hs

theorem ignoresPast_ite {c : Bool} {f g : State → State} (hf : IgnoresPast f) (hg : IgnoresPast g) :
    IgnoresPast fun s => if c then f s else g s := by
  cases c
  · exact hg
  · exact hf

/-- Such a stage makes the same move from every past. -/
theorem Stage.PastBlind.run {st : Stage} (h : st.PastBlind) (hs : s.seq ≠ .idle) :
    SharesOutcome (st.run s) (st.run (s.withPast r tr)) := by
  cases hm : st.move s with
  | ends q =>
    rw [run_ends hm, run_ends ((h.move s r tr).trans hm)]
    exact sharesOutcome_finish s q
  | issues x =>
    rw [run_issues hm, run_issues ((h.move s r tr).trans hm), Stage.perform, Stage.perform,
      transact_withPast]
    exact h.resume _ _ _ _ (advance_ne_idle hs)

/-! ### Each form of stage -/

theorem pastBlind_pureStage {result : State → Result}
    (h : ∀ s r tr, result (s.withPast r tr) = result s) : (pureStage result).PastBlind where
  move s r tr := congrArg Move.ends (h s r tr)
  resume _ := ignoresPast_id

theorem pastBlind_readStage {reg : Reg} {n : Nat} {takes : Transaction → Bool}
    {value : State → List Byte → Value} (h : ∀ s r tr b, value (s.withPast r tr) b = value s b) :
    (readStage reg n takes value).PastBlind where
  move _ _ _ := rfl
  resume e := by
    intro s r tr _
    simp only [readStage]
    cases e.bytes with
    | none => exact sharesOutcome_finish s _
    | some b =>
      simp only [h]
      exact sharesOutcome_finish s _

theorem pastBlind_writeStage {reg : Reg} {block : State → Except Cause (List Byte)}
    (h : ∀ s r tr, block (s.withPast r tr) = block s) : (writeStage reg block).PastBlind where
  move s r tr := by simp only [writeStage, h]
  resume _ := ignoresPast_ite (ignoresPast_succeed none) (ignoresPast_raise .busFail)

theorem pastBlind_testStage {expects : Locals} {reg : Reg} {m : Byte} {goOn : Bool → State → State}
    (h : ∀ b, IgnoresPast (goOn b)) : (testStage expects reg m goOn).PastBlind where
  move _ _ _ := rfl
  resume e := by
    simp only [testStage]
    cases e.bit with
    | none => exact ignoresPast_raise .busFail
    | some b => exact h b

theorem pastBlind_clearStage {reg : Reg} {m : Byte} {goOn : State → State} (h : IgnoresPast goOn) :
    (clearStage reg m goOn).PastBlind where
  move _ _ _ := rfl
  resume _ := ignoresPast_ite h (ignoresPast_raise .busFail)

theorem pastBlind_firedStages (mask : Byte) : ∀ st ∈ firedStages mask, st.PastBlind :=
  List.forall_mem_cons.mpr
    ⟨pastBlind_testStage fun _ => ignoresPast_ite (ignoresPast_keepFlag _) (ignoresPast_succeed _),
      List.forall_mem_singleton.mpr ⟨fun _ _ _ => rfl, fun _ => ignoresPast_succeed _⟩⟩

/-- No stage of a command looks at the result port or the trace. -/
theorem pastBlind_commandStages (hc : i.isCommand = true) : ∀ st ∈ commandStages i, st.PastBlind := by
  cases i with
  | decDt | decTemp | encDt | encAl1 | encAl2 =>
    exact List.forall_mem_singleton.mpr (pastBlind_pureStage fun _ _ _ => rfl)
  | getDt | getTemp | dumpRegs =>
    exact List.forall_mem_singleton.mpr (pastBlind_readStage fun _ _ _ _ => rfl)
  | setDt | setAl1 | setAl2 =>
    exact List.forall_mem_singleton.mpr (pastBlind_writeStage fun _ _ _ => rfl)
  | isRunning =>
    exact List.forall_mem_cons.mpr
      ⟨pastBlind_testStage fun _ => ignoresPast_ite (ignoresPast_succeed _) (ignoresPast_keepFlag _),
        List.forall_mem_singleton.mpr (pastBlind_testStage fun _ => ignoresPast_succeed _)⟩
  | enableOsc =>
    exact List.forall_mem_cons.mpr ⟨pastBlind_clearStage ignoresPast_id,
      List.forall_mem_singleton.mpr (pastBlind_clearStage (ignoresPast_succeed none))⟩
  | isAl1Set | isAl2Set => exact pastBlind_firedStages _
  | setIntPin p =>
    exact List.forall_mem_singleton.mpr ⟨fun _ _ _ => rfl,
      fun _ => ignoresPast_ite (ignoresPast_succeed none) (ignoresPast_raise .busFail)⟩
  | readBlock | writeBlock | testBit | changeBit | writeMasked => cases hc

/-! ### The command -/

/-- A command's admission looks at the operand ports only. -/
theorem admission_withPast (i : Instr) (s : State) : admission i (s.withPast r tr) = admission i s := by
  cases i <;> rfl

/-- The stage a command starts does not depend on the past. -/
theorem StageStart.withPast {k : Nat} {l : Locals} (h : StageStart i k l s s₀) :
    StageStart i k l (s.withPast r tr) (s₀.withPast r tr) := by
  rcases h with ⟨hs, hk, hl, rfl⟩ | ⟨hs, rfl⟩
  · exact .inl ⟨hs, hk, hl, rfl⟩
  · exact .inr ⟨hs, rfl⟩

/-- A command that answers a next state answers one with the same outcome from every past. -/
theorem exec_withPast (hc : i.isCommand = true) (h : exec i s = .next t) :
    ∃ t', exec i (s.withPast r tr) = .next t' ∧ SharesOutcome t t' := by
  obtain ⟨ha, k, st, s₀, hst, hs, rfl⟩ := (exec_next_iff hc).mp h
  have hbusy : s₀.seq ≠ .idle := by simp [hs.seq]
  refine ⟨st.run (s₀.withPast r tr), (exec_next_iff hc).mpr ?_,
    (pastBlind_commandStages hc st (List.mem_of_getElem? hst)).run hbusy⟩
  exact ⟨(admission_withPast i s).trans ha, k, st, _, hst, hs.withPast, rfl⟩

/-- Settles O50: the stages and the admission of a command are blind to the past. -/
theorem earlierResultsNotVisible : Obligations.EarlierResultsNotVisible := by
  intro i s r tr hc
  constructor
  · intro t h
    obtain ⟨t', ht', hregs, hseq, hdraws, hresult⟩ := exec_withPast (r := r) (tr := tr) hc h
    exact ⟨t', ht', hregs, hseq, hdraws, hresult⟩
  · intro q h
    exact (exec_refused_iff hc).mpr ((admission_withPast i s).trans ((exec_refused_iff hc).mp h))

end Sys2Proof.Machine
end

section
/-! PROOF. The register file a transaction finds (spec/10_state.md R26, spec/20_memory.md R59). -/

namespace Sys2Proof.Machine

variable {m : Memory} {a : Nat}

/-- A register no change names keeps its byte. -/
theorem read_change_unnamed {cs : List (Nat × Byte)} (h : ∀ v, (a, v) ∉ cs) :
    Memory.read (Memory.change m cs) a = Memory.read m a := by
  induction cs generalizing m with
  | nil => rfl
  | cons c rest ih =>
    obtain ⟨b, w⟩ := c
    have hb : b ≠ a := by
      rintro rfl
      exact h w List.mem_cons_self
    have hrest : ∀ v, (a, v) ∉ rest := fun v hv => h v (List.mem_cons_of_mem _ hv)
    rw [Memory.change, ih hrest, read_write, if_neg fun hba => hb hba.1]

/-- Changes outside the register file are dropped (log entry 29). -/
theorem read_change_outside (cs : List (Nat × Byte)) (h : registerCount ≤ a) :
    Memory.read (Memory.change m cs) a = Memory.read m a := by
  induction cs generalizing m with
  | nil => rfl
  | cons c rest ih =>
    obtain ⟨b, w⟩ := c
    have hb : ¬(b = a ∧ b < registerCount) := by omega
    rw [Memory.change, ih, read_write, if_neg hb]

theorem change_append (m : Memory) (before after : List (Nat × Byte)) :
    Memory.change m (before ++ after) = Memory.change (Memory.change m before) after := by
  induction before generalizing m with
  | nil => rfl
  | cons c rest ih => exact ih _

/-- The last change that names a register gives its byte. -/
theorem read_change_last {v : Byte} {after : List (Nat × Byte)} (before : List (Nat × Byte))
    (ha : a < registerCount) (h : ∀ w, (a, w) ∉ after) :
    Memory.read (Memory.change m (before ++ (a, v) :: after)) a = v := by
  rw [change_append, Memory.change, read_change_unnamed h, read_write, if_pos ⟨rfl, ha⟩]

theorem draw_of_nil {s : State} (h : s.draws = []) : s.draw = Config.freeDraw s.drawCount := by
  simp [State.draw, h]

theorem draw_of_cons {s : State} {d : Draw} {rest : List Draw} (h : s.draws = d :: rest) :
    s.draw = d := by
  simp [State.draw, h]

/-- Settles O55: `State.found` is the register file with the changes of the next draw made in order. -/
theorem transactionsFindEnvironmentChanges : Obligations.TransactionsFindEnvironmentChanges := by
  intro s
  refine ⟨fun a h => read_change_unnamed h, ?_, fun a h => read_change_outside _ h, ?_,
    fun d rest h => draw_of_cons h, draw_of_nil⟩
  · intro a v before after ha henv hlast
    rw [State.found, henv]
    exact read_change_last before ha hlast
  · intro henv
    rw [State.found, henv, change_nil]

end Sys2Proof.Machine
end

section
/-! PROOF. What the bus rows of the opcode table are: the transaction of each from the operands on the
bus-master port (spec/30_encoding.md R95), refused where it is not legal (spec/20_memory.md R51;
spec/43_bus.md R171 to R174). -/

namespace Sys2Proof.Machine

variable {s : State} {i : Instr} {x : Transaction}

/-- The transaction a bus row makes of the operands on the bus-master port (R95); a command is no bus row. -/
def rowTransaction (p : BusOperands) : Instr → Option Transaction
  | .readBlock => some (.readBlock p.addr p.len)
  | .writeBlock => some (.writeBlock p.addr p.bytes)
  | .testBit => some (.testBit p.addr p.mask)
  | .changeBit => some (.changeBit p.addr p.mask p.dir)
  | .writeMasked => some (.writeMasked p.addr p.mask p.value)
  | _ => none

/-- Every bus row is its transaction, issued for the command in hand (R170). -/
theorem exec_row (hx : rowTransaction s.busPort i = some x) :
    exec i s = transactInHand transactionStages x s := by
  cases i with
  | readBlock | writeBlock | testBit | changeBit | writeMasked =>
    cases hx
    rfl
  | _ => cases hx

theorem exists_rowTransaction (hc : i.isCommand = false) (p : BusOperands) :
    ∃ x, rowTransaction p i = some x := by
  cases i with
  | readBlock | writeBlock | testBit | changeBit | writeMasked => exact ⟨_, rfl⟩
  | _ => cases hc

/-- With a command in hand, a bus row whose transaction is not legal is refused before anything else. -/
theorem exec_row_refused {c : Instr} {k : Nat} {l : Locals} {q : Refusal} (hs : s.seq = .busy c k l)
    (hx : rowTransaction s.busPort i = some x) (hq : x.refusal = some q) : exec i s = .refused q := by
  rw [exec_row hx]
  simp [transactInHand, hs, hq]

theorem addressRefusal_past {a : RegAddr} (h : registerCount ≤ a.toNat) :
    addressRefusal a = some .addressRange := if_neg (Nat.not_lt.mpr h)

theorem oneBitRefusal_past {a : RegAddr} {m : Byte} (h : registerCount ≤ a.toNat) :
    oneBitRefusal a m = some .addressRange := by
  simp [oneBitRefusal, addressRefusal_past h]

theorem oneBitRefusal_mask {a : RegAddr} {m : Byte} (ha : a.toNat < registerCount)
    (hm : isOneBit m = false) : oneBitRefusal a m = some .maskNotOneBit := by
  simp [oneBitRefusal, addressRefusal, ha, hm]

/-- A mask with exactly one bit set is a power of two (D23). -/
theorem exists_two_pow_of_isOneBit {m : Byte} (h : isOneBit m = true) :
    ∃ k < 8, m = BitVec.ofNat 8 (2 ^ k) := by
  obtain ⟨k, hk⟩ : ∃ k, (List.range 8).filter (fun i => m.getLsbD i) = [k] := by
    rw [← List.length_eq_one_iff, ← List.countP_eq_length_filter]
    simpa [isOneBit] using h
  have hbit : ∀ j, (j < 8 ∧ m.getLsbD j = true) ↔ j = k := fun j => by
    rw [← List.mem_range, ← List.mem_filter (p := fun i => m.getLsbD i), hk, List.mem_singleton]
  obtain ⟨hk8, _⟩ := (hbit k).mpr rfl
  refine ⟨k, hk8, BitVec.eq_of_getLsbD_eq fun j hj => ?_⟩
  rw [BitVec.getLsbD_ofNat, Nat.testBit_two_pow, Bool.eq_iff_iff]
  simp only [hj, decide_true, Bool.true_and, decide_eq_true_eq, eq_comm (a := k), ← hbit j, true_and]

/-- Settles O35: each of these transactions is one that `Transaction.refusal` names, and with a command in hand
that comes first. -/
theorem illegalTransactionsRefused : Obligations.IllegalTransactionsRefused := by
  intro s c n l hs p
  refine ⟨fun h => ?_, fun h => ?_, fun i hi h => ?_, fun i hi ha hm => ?_⟩
  · exact exec_row_refused hs rfl (if_neg fun hlegal => by
      obtain ⟨hlen, hend⟩ := hlegal
      rcases h with h | h
      · exact Nat.ne_of_gt hlen h
      · exact absurd hend (Nat.not_le.mpr h))
  · exact exec_row_refused hs rfl (if_neg (Nat.not_le.mpr h))
  · simp only [List.mem_cons, List.not_mem_nil, or_false] at hi
    rcases hi with rfl | rfl | rfl
    · exact exec_row_refused hs rfl (oneBitRefusal_past h)
    · exact exec_row_refused hs rfl (oneBitRefusal_past h)
    · exact exec_row_refused hs rfl (addressRefusal_past h)
  · have hmask : isOneBit p.mask = false := by
      rw [← Bool.not_eq_true]
      intro hone
      obtain ⟨k, hk, hp⟩ := exists_two_pow_of_isOneBit hone
      exact hm k hk hp
    simp only [List.mem_cons, List.not_mem_nil, or_false] at hi
    rcases hi with rfl | rfl
    · exact exec_row_refused hs rfl (oneBitRefusal_mask ha hmask)
    · exact exec_row_refused hs rfl (oneBitRefusal_mask ha hmask)

end Sys2Proof.Machine
end

section
/-! PROOF. The register file around one transaction: it changes only where the transaction stores
(spec/43_bus.md R172 to R176), storing the same again changes nothing (spec/20_memory.md R57), and every
instruction issues at most one transaction, a command only its own (spec/20_memory.md R50). -/

namespace Sys2Proof.Machine

variable {s s₀ t : State} {i : Instr} {x : Transaction}

/-! ### One transaction -/

theorem length_newBytes (x : Transaction) (m : Memory) : (x.newBytes m).length = x.stores.2 := by
  cases x <;> rfl

theorem transact_transaction (x : Transaction) (s : State) : (transact x s).1.transaction = x := by
  obtain ⟨m, e, he, hx, _⟩ := transact_issued x s
  rw [he]
  exact hx

theorem transact_outcome (x : Transaction) (s : State) :
    ((transact x s).1.outcome = .fail ↔ s.draw.ok = false) ∧
      ((transact x s).1.outcome = .fail → (transact x s).1.data = none) := by
  rcases transact_cases x s with ⟨hd, h⟩ | ⟨hd, h⟩
  · simp [h, hd]
  · simp [h, hd]

/-- A transaction, ok or failed, leaves every register it does not store to as it finds it (R172, R176). -/
theorem read_transact_outside (s : State) {a : Nat}
    (ha : a < x.stores.1 ∨ x.stores.1 + x.stores.2 ≤ a) :
    Memory.read (transact x s).2.regs a = Memory.read s.found a := by
  rcases transact_cases x s with ⟨_, h⟩ | ⟨_, h⟩
  · rw [h, issued_regs, Transaction.applied, read_writeBlock_outside]
    rwa [length_newBytes]
  · rw [h, issued_regs, Transaction.failed, read_writeBlock_outside]
    have := List.length_take_le x.stores.2 s.draw.left
    omega

theorem changedBit_changedBit (b m : Byte) (d : BitDirection) :
    changedBit (changedBit b m d) m d = changedBit b m d := by
  cases d with
  | set => simp [changedBit, BitVec.or_assoc]
  | clear => simp [changedBit, BitVec.and_assoc]

theorem maskedByte_maskedByte (b m v : Byte) :
    maskedByte (maskedByte b m v) m v = maskedByte b m v := by
  ext k hk
  simp only [maskedByte, BitVec.getElem_or, BitVec.getElem_and, BitVec.getElem_not]
  cases m[k] <;> simp

theorem read_writeBlock_writeBlock (v : List Byte) (m : Memory) (a b : Nat) :
    Memory.read (Memory.writeBlock (Memory.writeBlock m a v) a v) b =
      Memory.read (Memory.writeBlock m a v) b := by
  simp only [read_writeBlock]
  split
  · cases v[b - a]? <;> rfl
  · rfl

/-- A register computed from its own byte by an idempotent operation computes the same again; a byte written
where there is no register is dropped. -/
theorem idempotent_read_write {f : Byte → Byte} (hf : ∀ b, f (f b) = f b) (m : Memory) (a : Nat) :
    f (Memory.read (Memory.write m a (f (Memory.read m a))) a) = f (Memory.read m a) := by
  rw [read_write]
  split
  · exact hf _
  · rfl

/-- A transaction that was ok would store the same bytes again (R57). -/
theorem newBytes_applied (x : Transaction) (m : Memory) : x.newBytes (x.applied m) = x.newBytes m := by
  cases x with
  | readBlock | writeBlock | testBit => rfl
  | changeBit a k d =>
    exact congrArg (fun b => [b])
      (idempotent_read_write (f := fun b => changedBit b k d) (changedBit_changedBit · k d) m a.toNat)
  | writeMasked a k v =>
    exact congrArg (fun b => [b])
      (idempotent_read_write (f := fun b => maskedByte b k v) (maskedByte_maskedByte · k v) m a.toNat)

theorem read_applied_applied (x : Transaction) (m : Memory) (a : Nat) :
    Memory.read (x.applied (x.applied m)) a = Memory.read (x.applied m) a := by
  rw [Transaction.applied, newBytes_applied]
  exact read_writeBlock_writeBlock _ _ _ _

/-- Where the environment changes nothing, a transaction finds the registers as they are (R26). -/
theorem found_of_quiet (h : s.draw.env = []) : s.found = s.regs := by
  rw [State.found, h, change_nil]

/-! ### The transaction an instruction issues -/

/-- `t` is `s` after the transaction `x`, beside the sequencer and the result port. -/
def AfterTransaction (x : Transaction) (s t : State) : Prop :=
  ∃ q r, t = { (transact x s).2 with seq := q, result := r }

theorem AfterTransaction.trace (h : AfterTransaction x s t) :
    t.trace = s.trace ++ [(transact x s).1] := by
  obtain ⟨q, r, rfl⟩ := h
  rfl

theorem AfterTransaction.regs (h : AfterTransaction x s t) : t.regs = (transact x s).2.regs := by
  obtain ⟨q, r, rfl⟩ := h
  rfl

theorem AfterTransaction.regs_ok (h : AfterTransaction x s t) (hd : s.draw.ok = true) :
    t.regs = x.applied s.found := by
  rw [h.regs, transact_ok x hd, issued_regs]

/-- The one new entry of the trace is the transaction's. -/
theorem AfterTransaction.entry {e : TraceEntry} (h : AfterTransaction x s t)
    (he : t.trace = s.trace ++ [e]) : e = (transact x s).1 := by
  rw [h.trace] at he
  simpa using he.symm

/-- A first stage runs in a state that differs in the sequencer alone, so its transaction is one of `s`. -/
theorem StartOf.afterTransaction {q : Seq} {r : Option Result} (h : StartOf i s s₀)
    (ht : t = { (transact x s₀).2 with seq := q, result := r }) : AfterTransaction x s t := by
  obtain rfl := h.eq_with
  exact ⟨q, r, ht⟩

/-- A command issues no transaction, or one that is its own (R50). -/
theorem exec_command_issues (hc : i.isCommand = true) (h : exec i s = .next t) :
    (∃ q r, t = { s with seq := q, result := r }) ∨
      ∃ x, AfterTransaction x s t ∧ mayIssue i x = true := by
  rcases exec_cases h with ⟨_, s₀, hs, hfirst⟩ | ⟨_, x, _, r, next, _, _, _, _, reach, _⟩ | ⟨hbus, _⟩
  · cases hfirst with
    | pure r next =>
      obtain rfl := hs.eq_with
      exact .inl ⟨_, _, next⟩
    | ended x r next _ _ reach => exact .inr ⟨x, hs.afterTransaction next, reach⟩
    | goesOn x l next _ _ reach => exact .inr ⟨x, hs.afterTransaction next, reach⟩
  · exact .inr ⟨x, ⟨_, _, next⟩, reach⟩
  · rw [hc] at hbus
    cases hbus

/-- A bus row issues its own transaction. -/
theorem exec_row_issues (hx : rowTransaction s.busPort i = some x) (h : exec i s = .next t) :
    AfterTransaction x s t := by
  rw [exec_row hx] at h
  obtain ⟨c, k, st, _, hst, _, _, _, rfl⟩ := transactInHand_next h
  exact resume_frame hst _ _

/-- Every instruction issues no transaction, or one. -/
theorem exec_issues (h : exec i s = .next t) :
    (∃ q r, t = { s with seq := q, result := r }) ∨ ∃ x, AfterTransaction x s t := by
  cases hc : i.isCommand with
  | true =>
    rcases exec_command_issues hc h with hnone | ⟨x, ht, _⟩
    · exact .inl hnone
    · exact .inr ⟨x, ht⟩
  | false =>
    obtain ⟨x, hx⟩ := exists_rowTransaction hc s.busPort
    exact .inr ⟨x, exec_row_issues hx h⟩

/-! ### The statements -/

/-- Settles O36: the second issue is of the same transaction, in the register file the first one left. -/
theorem transactionsIdempotent : Obligations.TransactionsIdempotent := by
  intro i s t u hi ht hu hs ht' henv a
  have hrow : ∀ j ∈ [Instr.readBlock, .writeBlock, .testBit, .changeBit, .writeMasked],
      j.isCommand = false := by decide
  obtain ⟨x, hx⟩ := exists_rowTransaction (hrow i hi) s.busPort
  obtain ⟨_, _, _, _, hport⟩ := execKeepsPorts i s t ht
  have hx' : rowTransaction t.busPort i = some x := hport ▸ hx
  have first : t.regs = x.applied s.found := (exec_row_issues hx ht).regs_ok hs
  have second : u.regs = x.applied t.regs := by
    rw [← found_of_quiet henv]
    exact (exec_row_issues (s := { t with seq := s.seq }) hx' hu).regs_ok ht'
  rw [second, first, read_applied_applied]

/-- Settles O37: by whether the instruction issued a transaction. -/
theorem registersChangeOnlyWhereStored : Obligations.RegistersChangeOnlyWhereStored := by
  intro i s t h
  rcases exec_issues h with ⟨q, r, rfl⟩ | ⟨x, hx⟩
  · refine ⟨fun _ => rfl, fun e he => ?_⟩
    simp at he
  · refine ⟨fun htr => ?_, fun e he => ?_⟩
    · simp [hx.trace] at htr
    · obtain rfl := hx.entry he
      rw [transact_transaction, hx.regs]
      obtain ⟨hfail, hdata⟩ := transact_outcome x s
      exact ⟨fun a => read_transact_outside s, hfail, hdata⟩

/-- Settles O44: the new entry is that of the one transaction the command issued. -/
theorem commandsReachOnlyTheirRegisters : Obligations.CommandsReachOnlyTheirRegisters := by
  intro i s t e hc h he
  rcases exec_command_issues hc h with ⟨q, r, rfl⟩ | ⟨x, hx, reach⟩
  · simp at he
  · rw [hx.entry he, transact_transaction]
    exact reach

end Sys2Proof.Machine
end

section
/-! PROOF. The encoding is one to one (spec/30_encoding.md R90 to R95): a port word decodes to an instruction exactly
where the instruction is well-formed and encodes to that word; so the words R93 reserves, and no other ones,
decode to nothing. -/

namespace Sys2Proof.Machine

variable {i : Instr} {w : BitVec 16}

/-! ### The two directions of the round trip -/

/-- The opcode map takes OP and ARG of a well-formed command to the command (R92). -/
theorem decodeOp_opcode_arg (hc : i.isCommand = true) (hw : i.wellFormed = true) :
    decodeOp i.opcode i.arg = .ok i := by
  cases i with
  | setIntPin p => exact if_pos hw
  | readBlock | writeBlock | testBit | changeBit | writeMasked => cases hc
  | _ => rfl

theorem encode_command (hc : i.isCommand = true) :
    encode i = .command (commandWord i.opcode i.arg) := if_pos hc

/-- The decoder reads the word of a well-formed instruction as that instruction. -/
theorem decode_encode (hw : i.wellFormed = true) : decode (encode i) = .ok i := by
  cases hc : i.isCommand with
  | true =>
    obtain ⟨hop, harg, hrsv⟩ := Laws.EncodedFields.fields_commandWord i.opcode i.arg
    rw [encode_command hc, decode, decodeCommand, if_pos hrsv, hop, harg]
    exact decodeOp_opcode_arg hc hw
  | false =>
    cases i with
    | readBlock | writeBlock | testBit | changeBit | writeMasked => rfl
    | _ => cases hc

/-- A command word with RSV 0 is made of its OP and ARG (R90). -/
theorem commandWord_fields (h : rsvField w = 0) : commandWord (opField w) (argField w) = w := by
  obtain ⟨hop, harg, hrsv⟩ := toNat_fields w
  have hzero : w.toNat / 8192 = 0 := by
    rw [← hrsv, h]
    rfl
  refine BitVec.eq_of_toNat_eq ?_
  rw [toNat_commandWord, hop, harg]
  omega

/-- What a kind code is accepted as: the bus row whose code it is (R95). -/
theorem decodeKind_ok {k : BitVec 3} (h : decodeKind k = .ok i) :
    i.wellFormed = true ∧ encode i = .bus k := by
  unfold decodeKind at h
  split_ifs at h with h0 h1 h2 h3 h4
  all_goals
    cases h
    subst k
    exact ⟨rfl, rfl⟩

/-- What the decoder accepts: the word of a well-formed instruction. -/
theorem wellFormed_and_encode_of_decode {w : PortWord} (h : decode w = .ok i) :
    i.wellFormed = true ∧ encode i = w := by
  cases w with
  | command w =>
    obtain ⟨hrsv, hdec⟩ := decodeCommand_ok h
    obtain ⟨hc, hw, hop, harg⟩ := decodeOp_ok hdec
    rw [encode_command hc, hop, harg, commandWord_fields hrsv]
    exact ⟨hw, rfl⟩
  | bus k => exact decodeKind_ok h

/-- Settles O2: command words by their fields and the opcode map, kind codes one by one. -/
theorem decodeInvertsEncode : Obligations.DecodeInvertsEncode := fun _ => decode_encode

/-- Settles O3: the opcode map and the kind codes name what they accept. -/
theorem encodeInvertsDecode : Obligations.EncodeInvertsDecode :=
  fun _ _ => wellFormed_and_encode_of_decode

/-- Settles O1: each word evaluates to its instruction. -/
theorem writtenOutWordsDecode : Obligations.WrittenOutWordsDecode :=
  ⟨rfl, rfl, rfl, rfl, rfl, rfl, rfl⟩

/-! ### The reserved command words -/

/-- A command word is accepted as `i` exactly where it is the number `256 * ARG + OP` of the well-formed command
`i` (R92). -/
theorem decode_command_iff : decode (.command w) = .ok i ↔
    i.isCommand = true ∧ i.wellFormed = true ∧ w.toNat = 256 * i.arg.toNat + i.opcode.toNat := by
  constructor
  · intro h
    have hc := isCommand_of_decode_command h
    obtain ⟨hw, he⟩ := wellFormed_and_encode_of_decode h
    rw [encode_command hc, PortWord.command.injEq] at he
    exact ⟨hc, hw, by rw [← he, toNat_commandWord]⟩
  · rintro ⟨hc, hw, hnum⟩
    have he : encode i = .command w := by
      rw [encode_command hc, PortWord.command.injEq]
      exact BitVec.eq_of_toNat_eq (by rw [toNat_commandWord, hnum])
    exact he ▸ decode_encode hw

/-- The values of OP, ARG and RSV that items 1 to 4 of R93 refuse, with the default INT_PIN_MODES. -/
def ReservedFields (op arg rsv : Nat) : Prop :=
  op ∉ [0x01, 0x02, 0x03, 0x04, 0x05, 0x10, 0x11, 0x12, 0x13, 0x14, 0x20, 0x21, 0x22, 0x23, 0x24, 0x30] ∨
  rsv ≠ 0 ∨
  (op ∈ [0x01, 0x02, 0x03, 0x10, 0x11, 0x14, 0x20, 0x21, 0x22, 0x23, 0x30] ∧ arg ≠ 0) ∨
  (op = 0x24 ∧ arg ∉ [0x07, 0x00, 0x08, 0x10, 0x18])

theorem toNat_mem_of_intPinModes {p : BitVec 5} (h : Config.intPinModes.contains p = true) :
    p.toNat ∈ [0x07, 0x00, 0x08, 0x10, 0x18] :=
  List.mem_map_of_mem (f := BitVec.toNat) (List.contains_iff_mem.mp h)

theorem intPinModes_of_mem {a : Nat} (h : a ∈ [0x07, 0x00, 0x08, 0x10, 0x18]) :
    Config.intPinModes.contains (BitVec.ofNat 5 a) = true :=
  List.contains_iff_mem.mpr (List.mem_map_of_mem (f := BitVec.ofNat 5) h)

/-- No well-formed command has reserved fields. -/
theorem not_reservedFields_of_command (hc : i.isCommand = true) (hw : i.wellFormed = true) :
    ¬ReservedFields i.opcode.toNat i.arg.toNat 0 := by
  cases i with
  | setIntPin p => 
    have := toNat_mem_of_intPinModes hw
    simp_all [ReservedFields, Instr.opcode, Instr.arg]
  | readBlock | writeBlock | testBit | changeBit | writeMasked => cases hc
  | _ => simp [ReservedFields, Instr.opcode, Instr.arg]

/-- OP and ARG that are not reserved are those of a well-formed command (R92). -/
theorem exists_command_of_not_reservedFields {op arg rsv : Nat} (harg : arg < 32)
    (h : ¬ReservedFields op arg rsv) :
    ∃ i : Instr, i.isCommand = true ∧ i.wellFormed = true ∧ i.opcode.toNat = op ∧ i.arg.toNat = arg := by
  simp only [ReservedFields, not_or, not_not, not_and] at h
  obtain ⟨hop, _, hzero, hpin⟩ := h
  have htag : (BitVec.ofNat 5 arg).toNat = arg := Nat.mod_eq_of_lt harg
  simp only [List.mem_cons, List.not_mem_nil, or_false] at hop
  rcases hop with h | h | h | h | h | h | h | h | h | h | h | h | h | h | h | h <;> subst h
  · exact ⟨.decDt, rfl, rfl, rfl, (hzero (by decide)).symm⟩
  · exact ⟨.decTemp, rfl, rfl, rfl, (hzero (by decide)).symm⟩
  · exact ⟨.encDt, rfl, rfl, rfl, (hzero (by decide)).symm⟩
  · exact ⟨.encAl1 (BitVec.ofNat 5 arg), rfl, rfl, rfl, htag⟩
  · exact ⟨.encAl2 (BitVec.ofNat 5 arg), rfl, rfl, rfl, htag⟩
  · exact ⟨.getDt, rfl, rfl, rfl, (hzero (by decide)).symm⟩
  · exact ⟨.setDt, rfl, rfl, rfl, (hzero (by decide)).symm⟩
  · exact ⟨.setAl1 (BitVec.ofNat 5 arg), rfl, rfl, rfl, htag⟩
  · exact ⟨.setAl2 (BitVec.ofNat 5 arg), rfl, rfl, rfl, htag⟩
  · exact ⟨.getTemp, rfl, rfl, rfl, (hzero (by decide)).symm⟩
  · exact ⟨.isRunning, rfl, rfl, rfl, (hzero (by decide)).symm⟩
  · exact ⟨.enableOsc, rfl, rfl, rfl, (hzero (by decide)).symm⟩
  · exact ⟨.isAl1Set, rfl, rfl, rfl, (hzero (by decide)).symm⟩
  · exact ⟨.isAl2Set, rfl, rfl, rfl, (hzero (by decide)).symm⟩
  · exact ⟨.setIntPin (BitVec.ofNat 5 arg), rfl, intPinModes_of_mem (hpin rfl), rfl, htag⟩
  · exact ⟨.dumpRegs, rfl, rfl, rfl, (hzero (by decide)).symm⟩

/-- The command words that decode are those without reserved fields (R93.1 to R93.4). -/
theorem exists_decode_command_iff : (∃ i, decode (.command w) = .ok i) ↔
    ¬ReservedFields (w.toNat % 256) (w.toNat / 256 % 32) (w.toNat / 8192) := by
  simp only [decode_command_iff]
  constructor
  · rintro ⟨i, hc, hw, hnum⟩
    have hop := i.opcode.isLt
    have harg := i.arg.isLt
    have h := not_reservedFields_of_command hc hw
    rwa [show w.toNat % 256 = i.opcode.toNat by omega, show w.toNat / 256 % 32 = i.arg.toNat by omega,
      show w.toNat / 8192 = 0 by omega]
  · intro h
    have hrsv : w.toNat / 8192 = 0 := by
      by_contra hne
      exact h (.inr (.inl hne))
    obtain ⟨i, hc, hw, hop, harg⟩ := exists_command_of_not_reservedFields (Nat.mod_lt _ (by decide)) h
    exact ⟨i, hc, hw, by omega⟩

/-! ### The step on a reserved word -/

variable {s : State} {r : Request} {rest : List Request}

/-- A word with reserved fields is refused at the step that takes it. -/
theorem step_refuses_reservedFields (hs : s.seq = .idle) (hr : s.requests = r :: rest)
    (h : ReservedFields (r.word.toNat % 256) (r.word.toNat / 256 % 32) (r.word.toNat / 8192)) :
    ∃ q, step s = .refused q := by
  cases hd : decode (.command r.word) with
  | ok i => exact absurd h (exists_decode_command_iff.mp ⟨i, hd⟩)
  | error q => exact ⟨_, step_idle_rejects hs hr hd⟩

/-- OP of a command whose ARG column is 0 names that command (R92, R93.3). -/
theorem eq_of_decode_plain {j : Instr} (hrow : ∀ arg, decodeOp j.opcode arg = plainCommand arg j)
    (hd : decode (.command w) = .ok i) (hop : w.toNat % 256 = j.opcode.toNat) : i = j := by
  obtain ⟨_, hdec⟩ := decodeCommand_ok hd
  have hfield : opField w = j.opcode := BitVec.eq_of_toNat_eq ((toNat_fields w).1.trans hop)
  rw [hfield, hrow] at hdec
  exact (plainCommand_ok hdec).2

/-- A word with the OP of a command whose ARG column is 0 is refused with an operand that the command does not
admit, whether the word decodes or not (R93). -/
theorem step_refuses_of_admission {j : Instr} {q : Refusal}
    (hrow : ∀ arg, decodeOp j.opcode arg = plainCommand arg j) (hs : s.seq = .idle)
    (hr : s.requests = r :: rest) (hop : r.word.toNat % 256 = j.opcode.toNat)
    (ha : admission j { s with requests := rest, dtPort := r.dt, blkPort := r.blk } = some q) :
    ∃ q, step s = .refused q := by
  cases hd : decode (.command r.word) with
  | error q => exact ⟨_, step_idle_rejects hs hr hd⟩
  | ok i =>
    obtain rfl := eq_of_decode_plain hrow hd hop
    rw [step_idle_accepts hs hr hd]
    exact ⟨q, (exec_refused_iff (isCommand_of_decode_command hd)).mpr ha⟩

/-- Settles O4: the words that decode are those without reserved fields, and the BLK length is checked by the
admission of DEC_DT and DEC_TEMP. -/
theorem reservedCommandWordsRefused : Obligations.ReservedCommandWordsRefused := by
  rintro s r rest w hs hr rfl
  constructor
  · rintro (hres | ⟨hop, hlen⟩ | ⟨hop, hlen⟩)
    · exact step_refuses_reservedFields hs hr hres
    · exact step_refuses_of_admission (j := .decDt) (fun _ => rfl) hs hr hop (if_neg hlen)
    · exact step_refuses_of_admission (j := .decTemp) (fun _ => rfl) hs hr hop (if_neg hlen)
  · exact exists_decode_command_iff.mpr

end Sys2Proof.Machine
end

section
/-! PROOF. The alarm modes and the pseudo-instructions that the spec decides itself (spec/30_encoding.md R85, R96,
R97; decisions D5 and D18). -/

namespace Sys2Proof.Machine

/-- Settles O6: the tags, and the fields each leaves to be matched, by evaluation. -/
theorem namedAlarmModesMatchTheirFields : Obligations.NamedAlarmModesMatchTheirFields :=
  ⟨rfl, rfl, rfl⟩

/-- Settles O7: the expansions by evaluation, whatever operands follow the alarm's number. -/
theorem pseudoInstructionsExpand : Obligations.PseudoInstructionsExpand :=
  ⟨fun _ => rfl, fun _ => rfl, rfl, rfl, by decide⟩

end Sys2Proof.Machine
end

section
/-! PROOF. A command and the bus row of its transaction are one move (spec/30_encoding.md R95, spec/43_bus.md R170):
with the command in hand and the transaction's operands on the bus-master port, both perform the same
transaction and go on alike. So the row of a command's transaction answers the command's next state, and a
placed kind code is run by the step of its carrier. -/

namespace Sys2Proof.Machine

variable {s t : State} {c i : Instr} {k : Nat} {st : Stage} {x : Transaction}

/-! ### The bus row of a transaction -/

/-- The kind code of every transaction is that of a bus row (R95). -/
theorem exists_decode_kind (x : Transaction) : ∃ row, decode (.bus x.kind) = .ok row := by
  cases x <;> exact ⟨_, rfl⟩

/-- With a transaction's operands on the port, the row of its kind code is that transaction (R95). -/
theorem rowTransaction_operands (h : decode (.bus x.kind) = .ok i) (p : BusOperands) :
    rowTransaction (x.operands p) i = some x := by
  cases x <;> cases h <;> rfl

/-! ### What a stage that issues transactions does not see -/

/-- `s` with other operands on the bus-master port. -/
def State.withBus (s : State) (p : BusOperands) : State := { s with busPort := p }

/-- A stage that does not look at the bus-master port, and whose own transactions are legal and of the kind it
takes from that port. -/
structure Stage.PortBlind (st : Stage) : Prop where
  move (s : State) (p : BusOperands) : st.move (s.withBus p) = st.move s
  resume (e : TraceEntry) (s : State) (p : BusOperands) :
    st.resume e (s.withBus p) = (st.resume e s).withBus p
  own {s : State} {x : Transaction} (issues : st.move s = .issues x) : st.takes x = true ∧ x.refusal = none

/-- Such a stage performs a transaction the same whatever the bus-master port holds. -/
theorem Stage.PortBlind.perform (h : st.PortBlind) (x : Transaction) (s : State) (p : BusOperands) :
    st.perform x (s.withBus p) = (st.perform x s).withBus p :=
  h.resume (transact x s).1 (transact x s).2 p

theorem portBlind_readStage {reg : Reg} {n : Nat} {takes : Transaction → Bool}
    {value : State → List Byte → Value} (hvalue : ∀ s p b, value (s.withBus p) b = value s b)
    (htakes : takes (.readBlock (regAddr reg) n) = true)
    (hlegal : (Transaction.readBlock (regAddr reg) n).refusal = none) :
    (readStage reg n takes value).PortBlind where
  move _ _ := rfl
  resume e s p := by
    simp only [readStage]
    cases e.bytes with
    | none => rfl
    | some b =>
      simp only [hvalue]
      rfl
  own issues := by
    cases issues
    exact ⟨htakes, hlegal⟩

theorem portBlind_writeStage {reg : Reg} {block : State → Except Cause (List Byte)}
    (hblock : ∀ s p, block (s.withBus p) = block s)
    (hlegal : ∀ s b, block s = .ok b → (Transaction.writeBlock (regAddr reg) b).refusal = none) :
    (writeStage reg block).PortBlind where
  move s p := by simp only [writeStage, hblock]
  resume e s p := by
    simp only [writeStage]
    cases e.isOk <;> rfl
  own {s x} issues := by
    simp only [writeStage] at issues
    cases hb : block s with
    | error q => simp [hb] at issues
    | ok b =>
      simp only [hb, Move.issues.injEq] at issues
      subst issues
      exact ⟨rfl, hlegal s b hb⟩

theorem portBlind_testStage {expects : Locals} {reg : Reg} {m : Byte} {goOn : Bool → State → State}
    (hgo : ∀ b s p, goOn b (s.withBus p) = (goOn b s).withBus p)
    (hlegal : (Transaction.testBit (regAddr reg) m).refusal = none) :
    (testStage expects reg m goOn).PortBlind where
  move _ _ := rfl
  resume e s p := by
    simp only [testStage]
    cases e.bit with
    | none => rfl
    | some b => exact hgo b s p
  own issues := by
    cases issues
    exact ⟨rfl, hlegal⟩

theorem portBlind_clearStage {reg : Reg} {m : Byte} {goOn : State → State}
    (hgo : ∀ s p, goOn (s.withBus p) = (goOn s).withBus p)
    (hlegal : (Transaction.changeBit (regAddr reg) m .clear).refusal = none) :
    (clearStage reg m goOn).PortBlind where
  move _ _ := rfl
  resume e s p := by
    simp only [clearStage]
    cases e.isOk with
    | false => rfl
    | true => exact hgo s p
  own issues := by
    cases issues
    exact ⟨rfl, hlegal⟩

theorem portBlind_firedStages {mask : Byte} (hmask : isOneBit mask = true) :
    ∀ st ∈ firedStages mask, st.PortBlind := by
  have hlegal : oneBitRefusal (regAddr .status) mask = none := if_pos hmask
  refine List.forall_mem_cons.mpr ⟨portBlind_testStage (fun b _ _ => by cases b <;> rfl) hlegal,
    List.forall_mem_singleton.mpr ⟨fun _ _ => rfl, fun _ _ _ => rfl, fun issues => ?_⟩⟩
  cases issues
  exact ⟨rfl, hlegal⟩

/-- The block of SET_DT has seven bytes, which fit from the first register on. -/
theorem encodeDateTime_legal {yearBase : Nat} {dt : DateTimeValue} {b : List Byte}
    (h : encodeDateTime yearBase dt = .ok b) :
    (Transaction.writeBlock (regAddr .seconds) b).refusal = none := by
  unfold encodeDateTime at h
  split at h
  · cases h
  · cases h
    rfl

/-- Every stage that issues transactions is blind to the bus-master port. -/
theorem portBlind_transactionStages (c : Instr) : ∀ st ∈ transactionStages c, st.PortBlind := by
  cases c with
  | getDt | getTemp | dumpRegs =>
    exact List.forall_mem_singleton.mpr (portBlind_readStage (fun _ _ _ => rfl) rfl rfl)
  | setDt =>
    exact List.forall_mem_singleton.mpr
      (portBlind_writeStage (fun _ _ => rfl) fun _ _ => encodeDateTime_legal)
  | setAl1 | setAl2 =>
    refine List.forall_mem_singleton.mpr (portBlind_writeStage (fun _ _ => rfl) fun _ _ h => ?_)
    cases h
    rfl
  | isRunning =>
    exact List.forall_mem_cons.mpr ⟨portBlind_testStage (fun b _ _ => by cases b <;> rfl) rfl,
      List.forall_mem_singleton.mpr (portBlind_testStage (fun _ _ _ => rfl) rfl)⟩
  | enableOsc =>
    exact List.forall_mem_cons.mpr ⟨portBlind_clearStage (fun _ _ => rfl) rfl,
      List.forall_mem_singleton.mpr (portBlind_clearStage (fun _ _ => rfl) rfl)⟩
  | isAl1Set | isAl2Set => exact portBlind_firedStages rfl
  | setIntPin p =>
    refine List.forall_mem_singleton.mpr ⟨fun _ _ => rfl, fun e _ _ => ?_, fun issues => ?_⟩
    · cases h : e.isOk <;> simp only [h] <;> rfl
    · cases issues
      exact ⟨rfl, rfl⟩
  | _ => exact List.forall_mem_nil _

/-- A command's admission does not look at the bus-master port. -/
theorem admission_withBus (c : Instr) (s : State) (p : BusOperands) :
    admission c (s.withBus p) = admission c s := by
  cases c <;> rfl

/-- A stage of a command that issues a transaction is one of its transaction stages. -/
theorem transactionStages_of_issues (hst : (commandStages c)[k]? = some st)
    (hm : st.move s = .issues x) : (transactionStages c)[k]? = some st := by
  cases c with
  | decDt | decTemp | encDt | encAl1 | encAl2 =>
    obtain rfl := List.mem_singleton.mp (List.mem_of_getElem? hst)
    cases hm
  | _ => exact hst

theorem commandStages_of_transactionStages (hst : (transactionStages c)[k]? = some st) :
    (commandStages c)[k]? = some st := by
  cases c with
  | decDt | decTemp | encDt | encAl1 | encAl2 => simp [transactionStages] at hst
  | _ => exact hst

/-! ### The command and the row -/

/-- The command in hand and the row of the transaction it issues perform that transaction (R170). -/
theorem exec_command_and_row (hs : s.seq = .busy c k st.expects)
    (hst : (transactionStages c)[k]? = some st) (ha : admission c s = none) (hm : st.move s = .issues x)
    (hrow : decode (.bus x.kind) = .ok i) (hp : rowTransaction s.busPort i = some x) :
    exec c s = .next (st.perform x s) ∧ exec i s = .next (st.perform x s) := by
  obtain ⟨htakes, hlegal⟩ := (portBlind_transactionStages c st (List.mem_of_getElem? hst)).own hm
  have hissues := issues_of hm htakes
  obtain ⟨hc, _⟩ := stage_row hst ha hissues hrow
  constructor
  · exact (exec_next_iff hc).mpr ⟨ha, k, st, s, commandStages_of_transactionStages hst, .inr ⟨hs, rfl⟩,
      (run_issues hm).symm⟩
  · rw [exec_row hp, transactInHand_busy hs hst hlegal ha hissues]

theorem StageStart.eq_inHand {l : Locals} {s₀ : State} (h : StageStart c k l s s₀) : s₀ = s.inHand c := by
  rcases h with ⟨hs, _, _, rfl⟩ | ⟨hs, rfl⟩ <;> simp [State.inHand, hs]

theorem inHand_trace (s : State) (c : Instr) : (s.inHand c).trace = s.trace := by
  unfold State.inHand
  split <;> rfl

theorem inHand_busPort (s : State) (c : Instr) : (s.inHand c).busPort = s.busPort := by
  unfold State.inHand
  split <;> rfl

theorem admission_inHand (i c : Instr) (s : State) : admission i (s.inHand c) = admission i s := by
  unfold State.inHand
  split
  · cases i <;> rfl
  · rfl

/-- A command that added to the trace ran a stage that issued the transaction of the new entry. -/
theorem exec_command_performs {e : TraceEntry} (hc : c.isCommand = true) (h : exec c s = .next t)
    (he : t.trace = s.trace ++ [e]) :
    ∃ k st, (transactionStages c)[k]? = some st ∧ (s.inHand c).seq = .busy c k st.expects ∧
      admission c (s.inHand c) = none ∧ st.move (s.inHand c) = .issues e.transaction ∧
      t = st.perform e.transaction (s.inHand c) := by
  obtain ⟨ha, k, st, s₀, hst, hstart, rfl⟩ := (exec_next_iff hc).mp h
  have hseq := hstart.seq
  obtain rfl := hstart.eq_inHand
  rw [← inHand_trace s c] at he
  cases hm : st.move (s.inHand c) with
  | ends r =>
    rw [run_ends hm] at he
    simp at he
  | issues x =>
    have hst' := transactionStages_of_issues hst hm
    have hafter : AfterTransaction x (s.inHand c) (st.run (s.inHand c)) := by
      rw [run_issues hm]
      exact resume_frame hst' _ _
    obtain rfl : e.transaction = x := by rw [hafter.entry he, transact_transaction]
    exact ⟨k, st, hst', hseq, (admission_inHand c c s).trans ha, hm, run_issues hm⟩

/-- Settles O52: the row performs the transaction of the command's own stage, which is blind to the port its
operands stand on. -/
theorem commandsIssueBusRows : Obligations.CommandsIssueBusRows := by
  intro c s t e hc h he
  obtain ⟨k, st, hst, hseq, ha, hm, rfl⟩ := exec_command_performs hc h he
  obtain ⟨row, hrow⟩ := exists_decode_kind e.transaction
  have hblind := portBlind_transactionStages c st (List.mem_of_getElem? hst)
  refine ⟨row, hrow, ?_⟩
  intro p
  obtain ⟨_, hexec⟩ := exec_command_and_row (s := (s.inHand c).withBus p) hseq hst
    ((admission_withBus c _ p).trans ha) ((hblind.move _ p).trans hm) hrow
    (rowTransaction_operands hrow s.busPort)
  rw [hblind.perform] at hexec
  exact hexec

/-! ### Placed rows -/

theorem tableWord_command (w : BitVec 16) : tableWord 16 w.toNat = some (.command w) := by
  simp [tableWord, w.isLt]

theorem tableWord_bus (k : BitVec 3) : tableWord 8 k.toNat = some (.bus k) := by
  simp [tableWord, k.isLt]

theorem withFetchWord_command (s : State) (w : BitVec 16) : s.withFetchWord 16 w.toNat = s.present w := by
  rw [State.withFetchWord, tableWord_command]

theorem withFetchWord_bus (s : State) (k : BitVec 3) :
    s.withFetchWord 8 k.toNat = s.presentKind transactionStages k := by
  rw [State.withFetchWord, tableWord_bus]

/-- The step after a command word is placed runs what the word decodes to, with the operands that stand on the
ports (log entry 19). -/
theorem step_present {w : BitVec 16} (h : decode (.command w) = .ok i) (s : State) :
    step (s.present w) = exec i { s with seq := .idle, blkPort := blockFor w s.blkPort } := by
  have hr : (s.present w).requests =
      { word := w, dt := s.dtPort, blk := blockFor w s.blkPort } :: s.requests := rfl
  rw [step_idle_accepts (present_seq s w) hr h]
  rfl

/-- `s` with the command `c` just accepted and an admitted DT operand on its port. -/
def State.carrying (s : State) (c : Instr) : State :=
  { s.accept c with dtPort := fitDateTime s.dtPort }

theorem dateTimeValid_fitDateTime (dt : DateTimeValue) : dateTimeValid (fitDateTime dt) = true := by
  unfold fitDateTime
  split
  · assumption
  · rfl

/-- The carrier of each kind code: it is admitted, and its first stage issues a transaction of that kind
(log entry 19). -/
theorem carrier_issues {k : BitVec 3} (h : decode (.bus k) = .ok i) (s : State) :
    ∃ c st rest x, carrier k = some c ∧ transactionStages c = st :: rest ∧ st.expects = Locals.empty ∧
      admission c (s.carrying c) = none ∧ st.move (s.carrying c) = .issues x ∧ x.kind = k := by
  simp only [decode, decodeKind] at h
  split_ifs at h with h0 h1 h2 h3 h4 <;> subst k
  · exact ⟨.dumpRegs, _, _, _, rfl, rfl, rfl, rfl, rfl, rfl⟩
  · exact ⟨.setAl2 0x00, _, _, _, rfl, rfl, rfl, admitDateTime_none.mpr (dateTimeValid_fitDateTime _),
      rfl, rfl⟩
  · exact ⟨.isRunning, _, _, _, rfl, rfl, rfl, rfl, rfl, rfl⟩
  · exact ⟨.enableOsc, _, _, _, rfl, rfl, rfl, rfl, rfl, rfl⟩
  · exact ⟨.setIntPin 0x00, _, _, _, rfl, rfl, rfl, rfl, rfl, rfl⟩

/-- Placing a kind code puts its carrier in hand and the carrier's transaction on the bus-master port. -/
theorem presentKind_of_carrier {stages : Instr → List Stage} {k : BitVec 3} {rest : List Stage}
    (hcarrier : carrier k = some c) (hst : stages c = st :: rest)
    (hm : st.move (s.carrying c) = .issues x) :
    s.presentKind stages k = (s.carrying c).withBus (x.operands s.busPort) := by
  rw [State.carrying] at hm
  simp only [State.presentKind, hcarrier, hst, hm]
  rfl

/-- Settles O54: a command word is taken with its operands at the next step; a kind code's carrier performs at
that step the transaction of the row. -/
theorem placedRowRunsNext : Obligations.PlacedRowRunsNext := by
  constructor
  · intro s w i hi
    rw [withFetchWord_command]
    exact step_present hi s
  · intro s k i hi
    obtain ⟨c, st, rest, x, hcarrier, hst, hl, ha, hm, rfl⟩ := carrier_issues hi s
    rw [withFetchWord_bus, presentKind_of_carrier hcarrier hst hm]
    have hst' : (transactionStages c)[0]? = some st := by
      rw [hst]
      rfl
    have hblind := portBlind_transactionStages c st (List.mem_of_getElem? hst')
    have hseq : ((s.carrying c).withBus (x.operands s.busPort)).seq = .busy c 0 st.expects := by
      rw [hl]
      rfl
    obtain ⟨hcmd, hrow⟩ := exec_command_and_row hseq hst' ((admission_withBus c _ _).trans ha)
      ((hblind.move _ _).trans hm) hi (rowTransaction_operands hi s.busPort)
    rw [step_busy hseq, hcmd, hrow]
    exact ⟨rfl, _, rfl⟩

end Sys2Proof.Machine
end

section
/-! PROOF. The two decoding commands (spec/40_decode.md R100 to R106): a pure command found Idle changes the result
alone, and its value is read off the bytes of the block as numbers. -/

namespace Sys2Proof.Machine

variable {s : State} {i : Instr}

/-! ### A pure command found Idle -/

/-- An admitted command whose one stage is pure ends in the move that accepts it: nothing but the result
changes. -/
theorem exec_pure_idle {result : State → Result} (hc : i.isCommand = true)
    (hst : commandStages i = [pureStage result]) (hs : s.seq = .idle) (ha : admission i s = none) :
    exec i s = .next { s with result := some (result (s.accept i)) } := by
  have hend : (pureStage result).run (s.accept i) = { s with result := some (result (s.accept i)) } := by
    rw [run_ends rfl, State.finish, ← hs]
    rfl
  rw [exec_eq_command hc, command_admitted ha, hst, sequence_idle _ hs, runStage_zero _ _ Locals.empty rfl, hend]

theorem exec_decDt_idle (hs : s.seq = .idle) (hb : s.blkPort.length = 7) :
    exec .decDt s = .next { s with
      result := some (succeeded (some (.dateTime (decodeDateTime s.yearBase s.blkPort)))) } :=
  exec_pure_idle (i := .decDt) rfl rfl hs (admitBlock_none.mpr hb)

theorem exec_decTemp_idle (hs : s.seq = .idle) (hb : s.blkPort.length = 2) :
    exec .decTemp s = .next { s with
      result := some (succeeded (some (.temperature (decodeTemperature s.blkPort)))) } :=
  exec_pure_idle (i := .decTemp) rfl rfl hs (admitBlock_none.mpr hb)

/-! ### The fields of the date-time block -/

/-- The bound of an unchecked BCD number with at most `k` in its high nibble (R100). -/
theorem digitsNumber_le {x k : Nat} (h : x < 16 * (k + 1)) : digitsNumber x ≤ 10 * k + 15 := by
  unfold digitsNumber
  omega

/-- A decode mask of `n` low bits is the remainder modulo `2 ^ n` (R101). -/
theorem toNat_and_lowMask (b : Byte) {n : Nat} (hn : n ≤ 8) :
    (b &&& BitVec.ofNat 8 (2 ^ n - 1)).toNat = b.toNat % 2 ^ n := by
  have hpow : 2 ^ n ≤ 2 ^ 8 := Nat.pow_le_pow_right (by decide) hn
  rw [BitVec.toNat_and, BitVec.toNat_ofNat, Nat.mod_eq_of_lt (by omega), Nat.and_two_pow_sub_one_eq_mod]

/-- A field of the date-time block: the unchecked BCD number of the masked byte, which fits a byte (R100, R101). -/
theorem toNat_maskedField (b : Byte) {n : Nat} (hn : n ≤ 8) :
    (BitVec.ofNat 8 (bcd2bin (b &&& BitVec.ofNat 8 (2 ^ n - 1)))).toNat = digitsNumber (b.toNat % 2 ^ n) := by
  have hle := bcd2bin_le (b &&& BitVec.ofNat 8 (2 ^ n - 1))
  rw [BitVec.toNat_ofNat, Nat.mod_eq_of_lt (by omega), bcd2bin, toNat_and_lowMask b hn, digitsNumber]

/-- The range of a field whose mask leaves at most `k` in the high nibble (R101). -/
theorem maskedField_le (b : Byte) {n k : Nat} (hn : n ≤ 8) (hk : 2 ^ n ≤ 16 * (k + 1)) :
    (BitVec.ofNat 8 (bcd2bin (b &&& BitVec.ofNat 8 (2 ^ n - 1)))).toNat ≤ 10 * k + 15 := by
  rw [toNat_maskedField b hn]
  exact digitsNumber_le ((Nat.mod_lt _ (Nat.two_pow_pos n)).trans_le hk)

/-- The day-of-week field: the low three bits, one less modulo 8 (R103). -/
theorem toNat_dowField (b : Byte) :
    (BitVec.ofNat 8 (((b &&& 0x07).toNat + 7) % 8)).toNat = (b.toNat % 8 + 7) % 8 := by
  have hmask : (b &&& 0x07).toNat = b.toNat % 8 := toNat_and_lowMask b (n := 3) (by decide)
  rw [hmask, BitVec.toNat_ofNat, Nat.mod_eq_of_lt (by omega)]

theorem centuryFlag_eq_decide (b : Byte) : centuryFlag b = decide (128 ≤ b.toNat) :=
  (BitVec.msb_eq_getLsbD_last b).symm.trans (BitVec.msb_eq_decide b)

/-- The decoded year as a number: the century flag is the top bit of the month byte (R102). -/
theorem yearDecode_centuryFlag (yearBase : Nat) (y month : Byte) :
    yearDecode yearBase y (centuryFlag month) =
      yearBase + digitsNumber y.toNat + 100 * (month.toNat / 128) := by
  have hlt := month.isLt
  rw [yearDecode, bcd2bin, digitsNumber, centuryFlag_eq_decide]
  by_cases hflag : 128 ≤ month.toNat
  · have hone : month.toNat / 128 = 1 := by omega
    simp [hflag, hone]
  · have hzero : month.toNat / 128 = 0 := by omega
    simp [hflag, hzero]

/-- The year is at most 265 past YEAR_BASE, so that it fits 16 bits for every YEAR_BASE (R20, R101). -/
theorem yearDecode_le (yearBase : Nat) (y : Byte) (c : Bool) : yearDecode yearBase y c ≤ yearBase + 265 := by
  have hle := bcd2bin_le y
  unfold yearDecode
  split <;> omega

theorem toNat_yearField (yearBase : Fin 65271) (y : Byte) (c : Bool) :
    (BitVec.ofNat 16 (yearDecode yearBase y c)).toNat = yearDecode yearBase y c := by
  have hle := yearDecode_le yearBase y c
  have hbase := yearBase.isLt
  rw [BitVec.toNat_ofNat, Nat.mod_eq_of_lt (by omega)]

/-- Settles O8: each field is the number of its masked byte, in the range of the digits the mask leaves. -/
theorem decDtDecodesBlock : Obligations.DecDtDecodesBlock := by
  refine ⟨rfl, ?_⟩
  intro s b0 b1 b2 b3 b4 b5 b6 hs hb
  refine ⟨decodeDateTime s.yearBase [b0, b1, b2, b3, b4, b5, b6], ?_, ?_⟩
  · rw [← hb]
    exact exec_decDt_idle hs (by rw [hb]; rfl)
  · exact
      ⟨toNat_maskedField b0 (n := 7) (by decide), maskedField_le b0 (n := 7) (k := 7) (by decide) (by decide),
        toNat_maskedField b1 (n := 7) (by decide), maskedField_le b1 (n := 7) (k := 7) (by decide) (by decide),
        toNat_maskedField b2 (n := 6) (by decide), maskedField_le b2 (n := 6) (k := 3) (by decide) (by decide),
        toNat_dowField b3,
        toNat_maskedField b4 (n := 6) (by decide), maskedField_le b4 (n := 6) (k := 3) (by decide) (by decide),
        toNat_maskedField b5 (n := 5) (by decide), maskedField_le b5 (n := 5) (k := 1) (by decide) (by decide),
        (toNat_yearField s.yearBase b6 _).trans (yearDecode_centuryFlag _ _ b5),
        (toNat_yearField s.yearBase b6 (centuryFlag b5)).trans_le (yearDecode_le _ _ _)⟩

/-! ### The quarter degrees of the temperature block -/

/-- The whole degrees are the signed high byte, and the fraction goes with their sign (R105, R106). -/
theorem decodeTemperature_pair (b0 b1 : Byte) :
    decodeTemperature [b0, b1] =
      if b0.toNat < 128 then 4 * (b0.toNat : Int) + (b1.toNat / 64 : Nat)
      else 4 * ((b0.toNat : Int) - 256) - (b1.toNat / 64 : Nat) := by
  have hlt := b0.isLt
  have hdegrees : b0.toInt = if b0.toNat < 128 then (b0.toNat : Int) else (b0.toNat : Int) - 256 := by
    rw [BitVec.toInt_eq_toNat_cond]
    split_ifs <;> omega
  change (if 0 ≤ b0.toInt then 4 * b0.toInt + (b1.toNat : Int) / 64
    else 4 * b0.toInt - (b1.toNat : Int) / 64) = _
  rw [hdegrees]
  split_ifs <;> omega

/-- The range of the quarter degrees, with the three values that would need a negative zero (R105). -/
theorem decodeTemperature_range (b0 b1 : Byte) :
    -515 ≤ decodeTemperature [b0, b1] ∧ decodeTemperature [b0, b1] ≤ 511 ∧
      decodeTemperature [b0, b1] ≠ -1 ∧ decodeTemperature [b0, b1] ≠ -2 ∧
      decodeTemperature [b0, b1] ≠ -3 := by
  have hhigh := b0.isLt
  have hlow := b1.isLt
  rw [decodeTemperature_pair]
  split_ifs <;> omega

/-- The two bytes of `4 * h + f` or `4 * (h - 256) - f` quarter degrees. -/
theorem decodeTemperature_ofNat {h f : Nat} (hh : h < 256) (hf : f < 4) :
    decodeTemperature [BitVec.ofNat 8 h, BitVec.ofNat 8 (64 * f)] =
      if h < 128 then 4 * (h : Int) + f else 4 * ((h : Int) - 256) - f := by
  rw [decodeTemperature_pair, BitVec.toNat_ofNat, BitVec.toNat_ofNat, Nat.mod_eq_of_lt hh,
    Nat.mod_eq_of_lt (by omega), Nat.mul_div_cancel_left f (by decide)]

/-- Every value of the range but those three is decoded from some two bytes (R105): `|q| / 4` whole degrees with
the sign of `q`, and `|q| % 4` quarters. -/
theorem exists_decodeTemperature_eq {q : Int} (hlo : -515 ≤ q) (hhi : q ≤ 511) (h1 : q ≠ -1) (h2 : q ≠ -2)
    (h3 : q ≠ -3) : ∃ b0 b1 : Byte, decodeTemperature [b0, b1] = q := by
  by_cases hq : 0 ≤ q
  · refine ⟨_, _, (decodeTemperature_ofNat (h := q.natAbs / 4) (f := q.natAbs % 4) ?_ ?_).trans ?_⟩
    · omega
    · omega
    · rw [if_pos (by omega)]
      omega
  · refine ⟨_, _, (decodeTemperature_ofNat (h := 256 - q.natAbs / 4) (f := q.natAbs % 4) ?_ ?_).trans ?_⟩
    · omega
    · omega
    · rw [if_neg (by omega)]
      omega

/-- Settles O9: the value and its range by the sign of the high byte, and two bytes for each value. -/
theorem decTempDecodesBlock : Obligations.DecTempDecodesBlock := by
  have hexec : ∀ (s : State) (b0 b1 : Byte), s.seq = .idle → s.blkPort = [b0, b1] →
      exec .decTemp s = .next { s with
        result := some (succeeded (some (.temperature (decodeTemperature [b0, b1])))) } := by
    intro s b0 b1 hs hb
    rw [← hb]
    exact exec_decTemp_idle hs (by rw [hb]; rfl)
  refine ⟨rfl, ?_, ?_⟩
  · intro s b0 b1 hs hb
    exact ⟨_, hexec s b0 b1 hs hb, decodeTemperature_pair b0 b1, decodeTemperature_range b0 b1⟩
  · intro q hlo hhi h1 h2 h3
    obtain ⟨b0, b1, rfl⟩ := exists_decodeTemperature_eq hlo hhi h1 h2 h3
    exact ⟨b0, b1, fun s => hexec s b0 b1⟩

end Sys2Proof.Machine
end

section
/-! PROOF. The three encoding commands (spec/41_encode.md R120 to R129): the admission of the DT operand, each
byte of a block as a number, and the decoding of the block ENC_DT answers. -/

namespace Sys2Proof.Machine

variable {s : State} {i : Instr} {dt : DateTimeValue} {yearBase : Nat}

/-! ### The admission of the DT operand -/

/-- The invariant of a date-time value as bounds on its fields (R28, R121). -/
theorem dateTimeValid_iff : dateTimeValid dt = true ↔
    1 ≤ dt.month.toNat ∧ dt.month.toNat ≤ 12 ∧ 1 ≤ dt.dom.toNat ∧ dt.dom.toNat ≤ 31 ∧
      dt.hour.toNat ≤ 23 ∧ dt.minute.toNat ≤ 59 ∧ dt.second.toNat ≤ 59 ∧ dt.dow.toNat ≤ 6 := by
  simp [dateTimeValid, and_assoc]

theorem admitDateTime_refused (h : ¬dateTimeValid s.dtPort = true) : admitDateTime s = some .dtInvariant :=
  if_neg h

/-- Settles O11: the six commands share the admission of the DT operand, and nothing else keeps an Idle block from
running them. -/
theorem encodersRefuseInvalidDateTime : Obligations.EncodersRefuseInvalidDateTime := by
  intro s i m hs hi dt admitted
  have hcommand : i.isCommand = true ∧ admission i s = admitDateTime s := by
    simp only [List.mem_cons, List.not_mem_nil, or_false] at hi
    rcases hi with rfl | rfl | rfl | rfl | rfl | rfl <;> exact ⟨rfl, rfl⟩
  obtain ⟨hc, ha⟩ := hcommand
  constructor
  · intro hout
    rw [exec_refused_iff hc, ha]
    exact admitDateTime_refused (mt dateTimeValid_iff.mp hout)
  · intro hin
    refine exec_next_of_admitted hc (.inl hs) (by rw [hs]; rfl) ?_
    rw [ha]
    exact admitDateTime_none.mpr (dateTimeValid_iff.mpr hin)

/-! ### The bytes of a block as numbers -/

theorem bin2bcd_eq_ofNat {v : Nat} (hv : v < 100) : bin2bcd v = BitVec.ofNat 8 (bcdNumber v) := by
  rw [bcdNumber, ← toNat_bin2bcd hv, BitVec.ofNat_toNat, BitVec.setWidth_eq]

/-- A bit set above all the others adds its weight. -/
theorem ofNat_or_twoPow {n k : Nat} (hn : n < 2 ^ k) :
    BitVec.ofNat 8 n ||| BitVec.ofNat 8 (2 ^ k) = BitVec.ofNat 8 (n + 2 ^ k) := by
  have hadd := Nat.two_pow_add_eq_or_of_lt hn 1
  rw [Nat.mul_one] at hadd
  rw [← BitVec.ofNat_or, Nat.or_comm, ← hadd, Nat.add_comm]

theorem withIgnoreBit_ofNat {n : Nat} (hn : n < 128) (ignored : Bool) :
    withIgnoreBit (BitVec.ofNat 8 n) ignored = BitVec.ofNat 8 (n + if ignored then 128 else 0) := by
  cases ignored with
  | false => rfl
  | true => exact ofNat_or_twoPow (k := 7) hn

/-- A number of at most two digits, the tens digit below 8, leaves the top bit free (R128). -/
theorem bcdNumber_lt {v : Nat} (hv : v < 80) : bcdNumber v < 128 := by
  unfold bcdNumber
  omega

/-- `field_byte` as a number (R128). -/
theorem fieldByte_eq_ofNat {v : Byte} (hv : v.toNat < 80) (ignored : Bool) :
    fieldByte v ignored = BitVec.ofNat 8 (bcdNumber v.toNat + if ignored then 128 else 0) := by
  rw [fieldByte, bin2bcd_eq_ofNat (by omega), withIgnoreBit_ofNat (bcdNumber_lt hv)]

/-- `day_byte` as a number: the selector lies above the digit of the day of week, and the ignore bit above both
(R129). -/
theorem dayByte_eq_ofNat (m : BitVec 5) (hdom : dt.dom.toNat ≤ 31) (hdow : dt.dow.toNat ≤ 6) :
    dayByte m dt = BitVec.ofNat 8 (dayNumber m dt) := by
  unfold dayByte dayNumber
  cases hday : dayOfWeekSelected m with
  | true =>
    have hdigits : bcdNumber (dt.dow.toNat + 1) < 64 := by
      unfold bcdNumber
      omega
    have hselector : bin2bcd (dt.dow.toNat + 1) ||| Config.dydtMask =
        BitVec.ofNat 8 (bcdNumber (dt.dow.toNat + 1) + 64) := by
      rw [bin2bcd_eq_ofNat (by omega)]
      exact ofNat_or_twoPow (k := 6) hdigits
    rw [if_pos rfl, hselector, withIgnoreBit_ofNat (by omega), if_pos (c := m.getLsbD 4 = true) hday]
    rfl
  | false =>
    rw [if_neg Bool.false_ne_true, bin2bcd_eq_ofNat (by omega), withIgnoreBit_ofNat (bcdNumber_lt (by omega)),
      if_neg (c := m.getLsbD 4 = true) (ne_true_of_eq_false hday)]
    rfl

/-! ### The blocks of the alarms -/

theorem exec_encAl1_idle (m : BitVec 5) (hs : s.seq = .idle) (hdt : dateTimeValid s.dtPort = true) :
    exec (.encAl1 m) s = .next { s with
      result := some (succeeded (some (.bytes (encodeAlarm1 m s.dtPort)))) } :=
  exec_pure_idle (i := .encAl1 m) rfl rfl hs (admitDateTime_none.mpr hdt)

theorem exec_encAl2_idle (m : BitVec 5) (hs : s.seq = .idle) (hdt : dateTimeValid s.dtPort = true) :
    exec (.encAl2 m) s = .next { s with
      result := some (succeeded (some (.bytes (encodeAlarm2 m s.dtPort)))) } :=
  exec_pure_idle (i := .encAl2 m) rfl rfl hs (admitDateTime_none.mpr hdt)

/-- The three bytes of alarm 2 as numbers (R127). -/
theorem encodeAlarm2_eq_ofNat (m : BitVec 5) (hdt : dateTimeValid dt = true) :
    encodeAlarm2 m dt =
      [ BitVec.ofNat 8 (bcdNumber dt.minute.toNat + ignoreWeight m 1)
      , BitVec.ofNat 8 (bcdNumber dt.hour.toNat + ignoreWeight m 2)
      , BitVec.ofNat 8 (dayNumber m dt) ] := by
  obtain ⟨_, _, _, hdom, hhour, hminute, _, hdow⟩ := dateTimeValid_iff.mp hdt
  rw [encodeAlarm2, fieldByte_eq_ofNat (by omega), fieldByte_eq_ofNat (by omega), dayByte_eq_ofNat m hdom hdow]
  rfl

/-- Alarm 1 has the seconds byte before the bytes of alarm 2 (R126). -/
theorem encodeAlarm1_eq_cons (m : BitVec 5) (hdt : dateTimeValid dt = true) :
    encodeAlarm1 m dt =
      BitVec.ofNat 8 (bcdNumber dt.second.toNat + ignoreWeight m 0) :: encodeAlarm2 m dt := by
  obtain ⟨_, _, _, _, _, _, hsecond, _⟩ := dateTimeValid_iff.mp hdt
  rw [encodeAlarm1, fieldByte_eq_ofNat (by omega)]
  rfl

/-- The word of a command, written as a number, decodes to it (R92). -/
theorem decode_ofNat_command (hc : i.isCommand = true) (hw : i.wellFormed = true) :
    decode (.command (BitVec.ofNat 16 (256 * i.arg.toNat + i.opcode.toNat))) = .ok i := by
  have harg := i.arg.isLt
  have hop := i.opcode.isLt
  refine decode_command_iff.mpr ⟨hc, hw, ?_⟩
  rw [BitVec.toNat_ofNat, Nat.mod_eq_of_lt (by omega)]

/-- Settles O13: the seconds byte and the bytes of alarm 2, each as a number. -/
theorem encAl1EncodesAlarm : Obligations.EncAl1EncodesAlarm := by
  intro m
  refine ⟨decode_ofNat_command (i := .encAl1 m) rfl rfl, ?_⟩
  intro s hs hdt
  rw [exec_encAl1_idle m hs hdt, encodeAlarm1_eq_cons m hdt, encodeAlarm2_eq_ofNat m hdt]

/-- Settles O14: the bytes of alarm 2, each as a number. -/
theorem encAl2EncodesAlarm : Obligations.EncAl2EncodesAlarm := by
  intro m
  refine ⟨decode_ofNat_command (i := .encAl2 m) rfl rfl, ?_⟩
  intro s hs hdt
  rw [exec_encAl2_idle m hs hdt, encodeAlarm2_eq_ofNat m hdt]

/-- The bits of a mode above bit 0 are those of its half. -/
theorem getLsbD_succ_of_half {m m' : BitVec 5} (h : m.toNat / 2 = m'.toNat / 2) (j : Nat) :
    m.getLsbD (j + 1) = m'.getLsbD (j + 1) := by
  rw [← BitVec.testBit_toNat, ← BitVec.testBit_toNat, Nat.testBit_succ, Nat.testBit_succ, h]

/-- What the block of alarm 2 depends on: bits 4 to 1 of the mode and four fields (R127). -/
theorem encodeAlarm2_congr {m m' : BitVec 5} {dt' : DateTimeValue} (hm : m.toNat / 2 = m'.toNat / 2)
    (hminute : dt.minute = dt'.minute) (hhour : dt.hour = dt'.hour) (hdom : dt.dom = dt'.dom)
    (hdow : dt.dow = dt'.dow) : encodeAlarm2 m dt = encodeAlarm2 m' dt' := by
  have hminutes : minutesIgnored m = minutesIgnored m' := getLsbD_succ_of_half hm 0
  have hhours : hoursIgnored m = hoursIgnored m' := getLsbD_succ_of_half hm 1
  have hday : dayIgnored m = dayIgnored m' := getLsbD_succ_of_half hm 2
  have hselected : dayOfWeekSelected m = dayOfWeekSelected m' := getLsbD_succ_of_half hm 3
  simp only [encodeAlarm2, dayByte, hminutes, hhours, hday, hselected, hminute, hhour, hdom, hdow]

/-- Settles O15: the two blocks depend on what the two states agree on. -/
theorem alarm2ReadsNoSeconds : Obligations.Alarm2ReadsNoSeconds := by
  intro s s' t m m' hs hs' hdt hdt' hminute hhour hdom hdow hm ht
  rw [exec_encAl2_idle m hs hdt] at ht
  cases ht
  refine ⟨_, exec_encAl2_idle m' hs' hdt', ?_⟩
  rw [encodeAlarm2_congr hm hminute hhour hdom hdow]

/-! ### The block of a date-time value -/

/-- The seven bytes of a date-time value as numbers (R122, R124): the century flag has weight 128 in the month byte,
and the year byte counts within the century. -/
def dateTimeBlock (yearBase : Nat) (dt : DateTimeValue) : List Byte :=
  let y := dt.year.toNat
  let c := if yearBase + 100 ≤ y then 1 else 0
  [ BitVec.ofNat 8 (bcdNumber dt.second.toNat)
  , BitVec.ofNat 8 (bcdNumber dt.minute.toNat)
  , BitVec.ofNat 8 (bcdNumber dt.hour.toNat)
  , BitVec.ofNat 8 (dt.dow.toNat + 1)
  , BitVec.ofNat 8 (bcdNumber dt.dom.toNat)
  , BitVec.ofNat 8 (bcdNumber dt.month.toNat + 128 * c)
  , BitVec.ofNat 8 (bcdNumber (y - yearBase - 100 * c)) ]

theorem encodeDateTime_eq_block (hdt : dateTimeValid dt = true) (hlo : yearBase ≤ dt.year.toNat)
    (hhi : dt.year.toNat < yearBase + 200) : encodeDateTime yearBase dt = .ok (dateTimeBlock yearBase dt) := by
  obtain ⟨_, hmonth, _, hdom, hhour, hminute, hsecond, _⟩ := dateTimeValid_iff.mp hdt
  have hmonthByte : bin2bcd dt.month.toNat = BitVec.ofNat 8 (bcdNumber dt.month.toNat) :=
    bin2bcd_eq_ofNat (by omega)
  have hflag : BitVec.ofNat 8 (bcdNumber dt.month.toNat) ||| 0x80#8 =
      BitVec.ofNat 8 (bcdNumber dt.month.toNat + 128) := ofNat_or_twoPow (k := 7) (bcdNumber_lt (by omega))
  rw [encodeDateTime, if_neg (by omega), hmonthByte, bin2bcd_eq_ofNat (v := dt.second.toNat) (by omega),
    bin2bcd_eq_ofNat (v := dt.minute.toNat) (by omega), bin2bcd_eq_ofNat (v := dt.hour.toNat) (by omega),
    bin2bcd_eq_ofNat (v := dt.dom.toNat) (by omega)]
  by_cases hcentury : yearBase + 100 ≤ dt.year.toNat
  · have hyear : dt.year.toNat - yearBase - 100 < 100 := by omega
    simp [dateTimeBlock, hcentury, hflag, bin2bcd_eq_ofNat hyear]
  · have hyear : dt.year.toNat - yearBase < 100 := by omega
    simp [dateTimeBlock, hcentury, bin2bcd_eq_ofNat hyear]

theorem encodeDateTime_rejects (h : dt.year.toNat < yearBase ∨ yearBase + 200 ≤ dt.year.toNat) :
    encodeDateTime yearBase dt = .error .yearRange := if_pos h

theorem exec_encDt_idle (hs : s.seq = .idle) (hdt : dateTimeValid s.dtPort = true) :
    exec .encDt s = .next { s with result := some (blockResult (encodeDateTime s.yearBase s.dtPort)) } :=
  exec_pure_idle (i := .encDt) rfl rfl hs (admitDateTime_none.mpr hdt)

/-- Settles O10: the block as numbers, or the year check. -/
theorem encDtEncodesOrRejectsYear : Obligations.EncDtEncodesOrRejectsYear := by
  refine ⟨rfl, ?_⟩
  intro s hs hdt
  constructor
  · rintro ⟨hlo, hhi⟩
    rw [exec_encDt_idle hs hdt, encodeDateTime_eq_block hdt hlo hhi]
    rfl
  · intro hout
    rw [exec_encDt_idle hs hdt, encodeDateTime_rejects hout]
    rfl

/-! ### The block decodes to the value encoded -/

theorem digitsNumber_bcdNumber (v : Nat) : digitsNumber (bcdNumber v) = v := by
  unfold digitsNumber bcdNumber
  omega

/-- A byte whose masked bits are the decimal digits of a value decodes to the value (R101, R125). -/
theorem maskedField_eq {b v : Byte} {n : Nat} (hn : n ≤ 8) (h : b.toNat % 2 ^ n = bcdNumber v.toNat) :
    BitVec.ofNat 8 (bcd2bin (b &&& BitVec.ofNat 8 (2 ^ n - 1))) = v := by
  refine BitVec.eq_of_toNat_eq ?_
  rw [toNat_maskedField b hn, h, digitsNumber_bcdNumber]

/-- Without a higher bit in the byte the mask changes nothing (R76). -/
theorem maskedField_digits {v : Byte} {n : Nat} (hn : n ≤ 8) (h : bcdNumber v.toNat < 2 ^ n) :
    BitVec.ofNat 8 (bcd2bin (BitVec.ofNat 8 (bcdNumber v.toNat) &&& BitVec.ofNat 8 (2 ^ n - 1))) = v := by
  have hpow : 2 ^ n ≤ 2 ^ 8 := Nat.pow_le_pow_right (by decide) hn
  refine maskedField_eq hn ?_
  rw [BitVec.toNat_ofNat, Nat.mod_eq_of_lt (by omega : bcdNumber v.toNat < 2 ^ 8), Nat.mod_eq_of_lt h]

/-- The month field, with the century flag above it (R102). -/
theorem maskedField_month {v : Byte} {c : Nat} (hv : v.toNat ≤ 12) :
    BitVec.ofNat 8 (bcd2bin (BitVec.ofNat 8 (bcdNumber v.toNat + 128 * c) &&& 0x1F)) = v := by
  refine maskedField_eq (n := 5) (by decide) ?_
  rw [BitVec.toNat_ofNat]
  unfold bcdNumber
  omega

/-- The day-of-week field is one less than the byte (R103). -/
theorem dowField_eq {v : Byte} (hv : v.toNat ≤ 6) :
    BitVec.ofNat 8 (((BitVec.ofNat 8 (v.toNat + 1) &&& 0x07).toNat + 7) % 8) = v := by
  refine BitVec.eq_of_toNat_eq ?_
  rw [toNat_dowField, BitVec.toNat_ofNat]
  omega

/-- The century flag and the two digits of the year byte give back the distance from YEAR_BASE (R102, R124). -/
theorem yearField_eq {yearBase : Fin 65271} {n c : Nat} {y : BitVec 16} (hn : n < 128)
    (hc : c = if yearBase + 100 ≤ y.toNat then 1 else 0)
    (hlo : yearBase ≤ y.toNat) (hhi : y.toNat < yearBase + 200) :
    BitVec.ofNat 16 (yearDecode yearBase (BitVec.ofNat 8 (bcdNumber (y.toNat - yearBase - 100 * c)))
      (centuryFlag (BitVec.ofNat 8 (n + 128 * c)))) = y := by
  have hflag : (n + 128 * c) % 2 ^ 8 / 128 = c := by
    split at hc <;> omega
  have hdigits : bcdNumber (y.toNat - yearBase - 100 * c) < 2 ^ 8 := by
    unfold bcdNumber
    split at hc <;> omega
  refine BitVec.eq_of_toNat_eq ?_
  rw [toNat_yearField, yearDecode_centuryFlag, BitVec.toNat_ofNat, BitVec.toNat_ofNat, hflag,
    Nat.mod_eq_of_lt hdigits, digitsNumber_bcdNumber]
  split at hc <;> omega

/-- Decoding inverts encoding, field by field (R125). -/
theorem decodeDateTime_dateTimeBlock {yearBase : Fin 65271} (hdt : dateTimeValid dt = true)
    (hlo : yearBase ≤ dt.year.toNat) (hhi : dt.year.toNat < yearBase + 200) :
    decodeDateTime yearBase (dateTimeBlock yearBase dt) = dt := by
  obtain ⟨_, hmonth, _, hdom, hhour, hminute, hsecond, hdow⟩ := dateTimeValid_iff.mp hdt
  obtain ⟨year, month, dom, hour, minute, second, dow⟩ := dt
  rw [decodeDateTime, DateTimeValue.mk.injEq]
  exact ⟨yearField_eq (bcdNumber_lt (by omega)) rfl hlo hhi, maskedField_month hmonth,
    maskedField_digits (n := 6) (by decide) (by unfold bcdNumber; omega),
    maskedField_digits (n := 6) (by decide) (by unfold bcdNumber; omega),
    maskedField_digits (n := 7) (by decide) (bcdNumber_lt (by omega)),
    maskedField_digits (n := 7) (by decide) (bcdNumber_lt (by omega)), dowField_eq hdow⟩

/-- Settles O12: ENC_DT answers the block, and DEC_DT decodes it back. -/
theorem encodedDateTimeDecodesBack : Obligations.EncodedDateTimeDecodesBack := by
  intro s hs hdt hlo hhi
  have hdowByte : s.dtPort.dow.toNat + 1 < 2 ^ 8 := by
    obtain ⟨_, _, _, _, _, _, _, hdow⟩ := dateTimeValid_iff.mp hdt
    omega
  refine ⟨dateTimeBlock s.yearBase s.dtPort, _, _, exec_encDt_idle hs hdt, ?_, ?_, exec_decDt_idle hs rfl, ?_⟩
  · rw [encodeDateTime_eq_block hdt hlo hhi]
    rfl
  · exact congrArg some ((BitVec.toNat_ofNat _ _).trans (Nat.mod_eq_of_lt hdowByte))
  · exact congrArg (fun v => some (succeeded (some (.dateTime v)))) (decodeDateTime_dateTimeBlock hdt hlo hhi)

end Sys2Proof.Machine
end

section
/-! PROOF. SET_DT followed by GET_DT (spec/42_driver.md R141, R142; spec/41_encode.md R125): a command found Idle
performs its first transaction, and the block written is the block read. -/

namespace Sys2Proof.Machine

variable {s : State} {i : Instr}

/-- A block the chip environment leaves alone is found as the last transaction left it (R26). -/
theorem block_found_of_quiet {n : Nat} (h : ∀ a < n, Memory.read s.found a = Memory.read s.regs a) :
    Memory.block s.found 0 n = Memory.block s.regs 0 n := by
  refine List.map_congr_left fun j hj => ?_
  rw [Nat.zero_add]
  exact h j (List.mem_range.mp hj)

/-- A block just written is the block read (R52, R172). -/
theorem block_writeBlock {m : Memory} {a : Nat} {b : List Byte} (h : a + b.length ≤ registerCount) :
    Memory.block (Memory.writeBlock m a b) a b.length = b := by
  refine List.ext_getElem (length_block _ _ _) ?_
  intro j _ hj
  simp only [Memory.block, List.getElem_map, List.getElem_range]
  rw [read_writeBlock_within _ h le_rfl, if_pos (by omega), Nat.add_sub_cancel_left, List.getD_eq_getElem _ _ hj]

/-- An admitted command found Idle with an ok draw performs the transaction of its first stage. -/
theorem exec_issues_idle {st : Stage} {rest : List Stage} {x : Transaction} (hc : i.isCommand = true)
    (hst : commandStages i = st :: rest) (he : st.expects = Locals.empty) (hs : s.seq = .idle)
    (ha : admission i s = none) (hx : st.move (s.accept i) = .issues x) (hd : s.draw.ok = true) :
    exec i s = .next (st.resume ⟨x, .ok, x.returned s.found⟩
      ((s.accept i).issued (x.applied s.found) ⟨x, .ok, x.returned s.found⟩)) := by
  rw [exec_eq_command hc, command_admitted ha, hst, sequence_first rest he hs, run_issues hx,
    perform_ok (s := s.accept i) st x hd, accept_found]

theorem exec_getDt_ok (hs : s.seq = .idle) (hd : s.draw.ok = true) :
    exec .getDt s = .next (s.endedBy s.found
      ⟨.readBlock 0x00 7, .ok, some (.bytes (Memory.block s.found 0 7))⟩
      (succeeded (some (.dateTime (decodeDateTime s.yearBase (Memory.block s.found 0 7)))))) :=
  exec_issues_idle (i := .getDt) rfl rfl rfl hs rfl rfl hd

theorem exec_setDt_ok {b : List Byte} (hs : s.seq = .idle) (hdt : dateTimeValid s.dtPort = true)
    (hb : encodeDateTime s.yearBase s.dtPort = .ok b) (hd : s.draw.ok = true) :
    exec .setDt s = .next (s.endedBy (Memory.writeBlock s.found 0 b) ⟨.writeBlock 0x00 b, .ok, none⟩
      (succeeded none)) :=
  exec_issues_idle (i := .setDt) (x := .writeBlock 0x00 b) rfl rfl rfl hs (admitDateTime_none.mpr hdt)
    (by simp [writeStage, hb, regAddr]) hd

/-- Settles O24: GET_DT reads the block SET_DT wrote, which decodes to the value set. -/
theorem setThenGetReturnsDateTime : Obligations.SetThenGetReturnsDateTime := by
  intro s hs hdt hlo hhi hd
  refine ⟨_, exec_setDt_ok hs hdt (encodeDateTime_eq_block hdt hlo hhi) hd, ?_⟩
  intro hd' hquiet
  have hread : Memory.block (Memory.writeBlock s.found 0 (dateTimeBlock s.yearBase s.dtPort)) 0 7 =
      dateTimeBlock s.yearBase s.dtPort := block_writeBlock (by decide : 0 + 7 ≤ registerCount)
  refine ⟨_, exec_getDt_ok rfl hd', ?_⟩
  rw [block_found_of_quiet hquiet]
  refine congrArg (fun v => some (succeeded (some (.dateTime v)))) ?_
  exact (congrArg (decodeDateTime s.yearBase) hread).trans (decodeDateTime_dateTimeBlock hdt hlo hhi)

end Sys2Proof.Machine
end

section
/-! PROOF. One stage of a command that issues its transaction, whatever the draw: the state it answers
(spec/10_state.md R22; spec/42_driver.md R140), and every register after the transaction (spec/43_bus.md R172 to
R176). -/

namespace Sys2Proof.Machine

variable {s : State} {i : Instr} {k : Nat} {st : Stage} {x : Transaction}

/-! ### The answer of a stage -/

/-- The move of `i` that finds `s` is its stage `k`, which issues `x`: the command is admitted, and the block Idle
before a first stage or the command in hand at step `k`. -/
structure Issues (i : Instr) (k : Nat) (st : Stage) (x : Transaction) (s : State) : Prop where
  command : i.isCommand = true
  admitted : admission i s = none
  stage : (commandStages i)[k]? = some st
  start : StageStart i k st.expects s { s with seq := .busy i k st.expects }
  move : st.move { s with seq := .busy i k st.expects } = .issues x

/-- An admitted command found Idle issues the transaction of its first stage. -/
theorem Issues.first {rest : List Stage} (hc : i.isCommand = true) (hst : commandStages i = st :: rest)
    (he : st.expects = Locals.empty) (hs : s.seq = .idle) (ha : admission i s = none)
    (hx : st.move { s with seq := .busy i 0 st.expects } = .issues x) : Issues i 0 st x s :=
  ⟨hc, ha, by rw [hst]; rfl, .inl ⟨hs, rfl, he, by rw [he]; rfl⟩, hx⟩

/-- A command in hand before its second transaction issues that of its second stage. -/
theorem Issues.second {fst : Stage} (hc : i.isCommand = true) (hst : commandStages i = [fst, st])
    (hs : s.seq = .busy i 1 st.expects) (ha : admission i s = none)
    (hx : st.move { s with seq := .busy i 1 st.expects } = .issues x) : Issues i 1 st x s :=
  ⟨hc, ha, by rw [hst]; rfl, .inr ⟨hs, by rw [← hs]⟩, hx⟩

/-- The command performs the transaction with its stage (R22). -/
theorem Issues.answers (h : Issues i k st x s) :
    exec i s = .next (st.perform x { s with seq := .busy i k st.expects }) :=
  (exec_next_iff h.command).mpr ⟨h.admitted, k, st, _, h.stage, h.start, (run_issues h.move).symm⟩

/-- With the draw ok, the stage goes on with what the transaction returned (R171 to R175). -/
theorem Issues.ok (h : Issues i k st x s) (hd : s.draw.ok = true) :
    exec i s = .next (st.resume ⟨x, .ok, x.returned s.found⟩
      (State.issued { s with seq := .busy i k st.expects } (x.applied s.found)
        ⟨x, .ok, x.returned s.found⟩)) :=
  h.answers.trans (congrArg _ (perform_ok (s := { s with seq := .busy i k st.expects }) st x hd))

/-- With the draw fail, the stage goes on with no data, from what the draw left (R176). -/
theorem Issues.fail (h : Issues i k st x s) (hd : s.draw.ok = false) :
    exec i s = .next (st.resume ⟨x, .fail, none⟩
      (State.issued { s with seq := .busy i k st.expects } (x.failed s.draw.left s.found)
        ⟨x, .fail, none⟩)) :=
  h.answers.trans (congrArg _ (perform_fail (s := { s with seq := .busy i k st.expects }) st x hd))

/-- A failed transaction that stores nothing leaves the register file as it finds it (R176). -/
theorem Issues.fail_stores_none (h : Issues i k st x s) (hx : x.stores.2 = 0) (hd : s.draw.ok = false) :
    exec i s = .next (st.resume ⟨x, .fail, none⟩
      (State.issued { s with seq := .busy i k st.expects } s.found ⟨x, .fail, none⟩)) := by
  rw [h.fail hd, Transaction.failed, hx]
  rfl

/-- A TEST_BIT that returned `b` (R173). -/
theorem Issues.test_ok {a : RegAddr} {m : Byte} {b : Bool} (h : Issues i k st (.testBit a m) s)
    (hd : s.draw.ok = true) (hb : bitIsSet (Memory.read s.found a.toNat) m = b) :
    exec i s = .next (st.resume ⟨.testBit a m, .ok, some (.bit b)⟩
      (State.issued { s with seq := .busy i k st.expects } s.found ⟨.testBit a m, .ok, some (.bit b)⟩)) := by
  rw [h.ok hd, ← hb]
  rfl

/-- A command whose stage issues a transaction answers a state after it. -/
theorem Issues.afterTransaction (h : Issues i k st x s) :
    ∃ t, exec i s = .next t ∧ AfterTransaction x s t :=
  ⟨_, h.answers, resume_frame (transactionStages_of_issues h.stage h.move) _ _⟩

/-- A command found Idle whose first stage ends it without a transaction changes the result alone. -/
theorem exec_ends_idle {rest : List Stage} {r : Result} (hc : i.isCommand = true)
    (hst : commandStages i = st :: rest) (he : st.expects = Locals.empty) (hs : s.seq = .idle)
    (ha : admission i s = none) (hm : st.move (s.accept i) = .ends r) :
    exec i s = .next { s with result := some r } := by
  rw [exec_eq_command hc, command_admitted ha, hst, sequence_first rest he hs, run_ends hm, State.finish, ← hs]
  rfl

/-- One register file serves both draws of a transaction. -/
theorem exists_memory_by_draw {P Q : Memory → Prop} {c : Bool} {m n : Memory} (hok : c = true → P m)
    (hfail : c = false → Q n) : ∃ l, (c = true → P l) ∧ (c = false → Q l) := by
  cases c with
  | true => exact ⟨m, hok, by simp⟩
  | false => exact ⟨n, by simp, hfail⟩

/-! ### Every register after a transaction -/

theorem block_zero (m : Memory) (n : Nat) : Memory.block m 0 n = (List.range n).map (Memory.read m ·) := by
  simp [Memory.block]

/-- A failed write leaves in each addressed register what the draw leaves there, else the byte found (R176). -/
theorem read_failed (hx : x.stores.1 + x.stores.2 ≤ registerCount) (left : List Byte) (m : Memory) (b : Nat) :
    Memory.read (x.failed left m) b =
      if x.stores.1 ≤ b ∧ b < x.stores.1 + x.stores.2 then left.getD (b - x.stores.1) (Memory.read m b)
      else Memory.read m b := by
  rw [Transaction.failed, read_writeBlock_within b hx (List.length_take_le _ _)]
  split
  · rw [List.getD_eq_getElem?_getD, List.getElem?_take_of_lt (by omega), ← List.getD_eq_getElem?_getD]
  · rfl

theorem read_failed_one {a : Nat} (hx : x.stores = (a, 1)) (ha : a < registerCount) (left : List Byte)
    (m : Memory) (b : Nat) :
    Memory.read (x.failed left m) b = if b = a then left.getD 0 (Memory.read m b) else Memory.read m b := by
  rw [read_failed (by rw [hx]; exact ha), hx]
  by_cases hb : b = a
  · simp [hb]
  · rw [if_neg hb, if_neg (by dsimp only; omega)]

/-- A successful WRITE_BLOCK leaves its bytes in its registers (R172). -/
theorem read_applied_writeBlock {a : RegAddr} {v : List Byte} (h : a.toNat + v.length ≤ registerCount)
    (m : Memory) (b : Nat) :
    Memory.read ((Transaction.writeBlock a v).applied m) b =
      if a.toNat ≤ b ∧ b < a.toNat + v.length then v.getD (b - a.toNat) 0 else Memory.read m b := by
  refine (read_writeBlock_within b h le_rfl).trans ?_
  split
  · rw [List.getD_eq_getElem _ _ (by omega), List.getD_eq_getElem _ _ (by omega)]
  · rfl

/-- A write to a register that exists is read back there and nowhere else (R174, R175). -/
theorem read_write_register {a : Nat} (ha : a < registerCount) (m : Memory) (f : Byte → Byte) (b : Nat) :
    Memory.read (Memory.write m a (f (Memory.read m a))) b =
      if b = a then f (Memory.read m b) else Memory.read m b := by
  rw [read_write]
  by_cases hb : b = a
  · rw [if_pos ⟨hb.symm, ha⟩, if_pos hb, hb]
  · rw [if_neg (fun h => hb h.1.symm), if_neg hb]

theorem read_applied_changeBit {a : RegAddr} (ha : a.toNat < registerCount) (k : Byte) (d : BitDirection)
    (m : Memory) (b : Nat) :
    Memory.read ((Transaction.changeBit a k d).applied m) b =
      if b = a.toNat then changedBit (Memory.read m b) k d else Memory.read m b :=
  read_write_register ha m (changedBit · k d) b

theorem read_applied_writeMasked {a : RegAddr} (ha : a.toNat < registerCount) (k v : Byte) (m : Memory)
    (b : Nat) :
    Memory.read ((Transaction.writeMasked a k v).applied m) b =
      if b = a.toNat then maskedByte (Memory.read m b) k v else Memory.read m b :=
  read_write_register ha m (maskedByte · k v) b

end Sys2Proof.Machine
end

section
/-! PROOF. The block transfers (spec/42_driver.md R141 to R145, R151): one transaction from Idle, its result and its
frame, and the codec command that gives the same block or value. -/

namespace Sys2Proof.Machine

variable {s : State} {m : BitVec 5}

/-! ### The transaction of each command -/

theorem issues_getDt (hs : s.seq = .idle) : Issues .getDt 0
    (readStage .seconds 7 (isReadOf 7) fun u b => .dateTime (decodeDateTime u.yearBase b))
    (.readBlock 0x00 7) s :=
  .first rfl rfl rfl hs rfl rfl

theorem issues_getTemp (hs : s.seq = .idle) : Issues .getTemp 0
    (readStage .temperatureHigh 2 (isReadOf 2) fun _ b => .temperature (decodeTemperature b))
    (.readBlock 0x11 2) s :=
  .first rfl rfl rfl hs rfl rfl

theorem issues_dumpRegs (hs : s.seq = .idle) : Issues .dumpRegs 0
    (readStage .seconds registerCount isReadBlock fun _ b => .bytes b) (.readBlock 0x00 19) s :=
  .first rfl rfl rfl hs rfl rfl

theorem issues_setDt {b : List Byte} (hs : s.seq = .idle) (hdt : dateTimeValid s.dtPort = true)
    (hb : encodeDateTime s.yearBase s.dtPort = .ok b) : Issues .setDt 0
    (writeStage .seconds fun u => encodeDateTime u.yearBase u.dtPort) (.writeBlock 0x00 b) s :=
  .first rfl rfl rfl hs (admitDateTime_none.mpr hdt) (by simp [writeStage, hb, regAddr])

theorem issues_setAl1 (hs : s.seq = .idle) (hdt : dateTimeValid s.dtPort = true) : Issues (.setAl1 m) 0
    (writeStage .alarm1Seconds fun u => .ok (encodeAlarm1 m u.dtPort))
    (.writeBlock 0x07 (encodeAlarm1 m s.dtPort)) s :=
  .first rfl rfl rfl hs (admitDateTime_none.mpr hdt) rfl

theorem issues_setAl2 (hs : s.seq = .idle) (hdt : dateTimeValid s.dtPort = true) : Issues (.setAl2 m) 0
    (writeStage .alarm2Minutes fun u => .ok (encodeAlarm2 m u.dtPort))
    (.writeBlock 0x0B (encodeAlarm2 m s.dtPort)) s :=
  .first rfl rfl rfl hs (admitDateTime_none.mpr hdt) rfl

/-! ### The reads -/

/-- Settles O16: the one transaction of GET_DT, by its draw. -/
theorem getDtReadsDateTime : Obligations.GetDtReadsDateTime := by
  refine ⟨rfl, ?_⟩
  intro s hs b
  have hb : Memory.block s.found 0 7 = b := block_zero _ _
  exact ⟨fun hd => hb ▸ exec_getDt_ok hs hd, (issues_getDt hs).fail_stores_none rfl⟩

/-- Settles O22: the one transaction of GET_TEMP, by its draw. -/
theorem getTempReadsTemperature : Obligations.GetTempReadsTemperature :=
  ⟨rfl, fun _ hs => ⟨(issues_getTemp hs).ok, (issues_getTemp hs).fail_stores_none rfl⟩⟩

/-- Settles O23: the one transaction of DUMP_REGS, by its draw. -/
theorem dumpRegsReadsAllRegisters : Obligations.DumpRegsReadsAllRegisters := by
  refine ⟨rfl, ?_⟩
  intro s hs b
  have hb : Memory.block s.found 0 19 = b := block_zero _ _
  exact ⟨fun hd => hb ▸ (issues_dumpRegs hs).ok hd, (issues_dumpRegs hs).fail_stores_none rfl⟩

/-- Settles O21: the bytes read, on the BLK port, are what the decoder decodes. -/
theorem getCommandsAnswerDecodedBlock : Obligations.GetCommandsAnswerDecodedBlock := by
  intro s i j hs hd hij
  simp only [List.mem_cons, List.not_mem_nil, or_false, Prod.mk.injEq] at hij
  rcases hij with ⟨rfl, rfl⟩ | ⟨rfl, rfl⟩
  · exact ⟨Memory.block s.found 0 7, _, _, _, _, (issues_getDt hs).ok hd, rfl,
      exec_decDt_idle hs (length_block _ _ _), rfl⟩
  · exact ⟨Memory.block s.found 0x11 2, _, _, _, _, (issues_getTemp hs).ok hd, rfl,
      exec_decTemp_idle hs (length_block _ _ _), rfl⟩

/-! ### The writes -/

/-- The one WRITE_BLOCK of a command, by its draw (R172, R176). -/
theorem Issues.write_by_draw {i : Instr} {reg : Reg} {block : State → Except Cause (List Byte)} {v : List Byte}
    (h : Issues i 0 (writeStage reg block) (.writeBlock (regAddr reg) v) s)
    (hv : (regAddr reg).toNat + v.length ≤ registerCount) :
    ∃ r : Memory,
      (s.draw.ok = true →
        exec i s = .next (s.endedBy r ⟨.writeBlock (regAddr reg) v, .ok, none⟩ (succeeded none)) ∧
        ∀ a, Memory.read r a = if (regAddr reg).toNat ≤ a ∧ a < (regAddr reg).toNat + v.length
          then v.getD (a - (regAddr reg).toNat) 0 else Memory.read s.found a) ∧
      (s.draw.ok = false →
        exec i s = .next (s.endedBy r ⟨.writeBlock (regAddr reg) v, .fail, none⟩ busFailed) ∧
        ∀ a, Memory.read r a = if (regAddr reg).toNat ≤ a ∧ a < (regAddr reg).toNat + v.length
          then s.draw.left.getD (a - (regAddr reg).toNat) (Memory.read s.found a) else Memory.read s.found a) :=
  exists_memory_by_draw (fun hd => ⟨h.ok hd, read_applied_writeBlock hv _⟩)
    (fun hd => ⟨h.fail hd, read_failed (x := .writeBlock (regAddr reg) v) hv _ _⟩)

/-- SET_DT ends without a transaction for a year out of range (R142). -/
theorem exec_setDt_rejects (hs : s.seq = .idle) (hdt : dateTimeValid s.dtPort = true)
    (hout : s.dtPort.year.toNat < s.yearBase ∨ s.yearBase + 200 ≤ s.dtPort.year.toNat) :
    exec .setDt s = .next { s with result := some yearRejected } :=
  exec_ends_idle (i := .setDt) rfl rfl rfl hs (admitDateTime_none.mpr hdt)
    (by simp [writeStage, encodeDateTime_rejects hout]; rfl)

/-- Settles O17: the year check, or the one transaction of SET_DT by its draw. -/
theorem setDtWritesDateTime : Obligations.SetDtWritesDateTime := by
  refine ⟨rfl, ?_⟩
  intro s hs hdt y
  refine ⟨exec_setDt_rejects hs hdt, ?_⟩
  rintro ⟨hlo, hhi⟩
  have hb := encodeDateTime_eq_block hdt hlo hhi
  obtain ⟨m, hm⟩ := (issues_setDt hs hdt hb).write_by_draw (by decide : 0 + 7 ≤ registerCount)
  exact ⟨_, m, hb, rfl, by simpa [dateTimeBlock, regAddr] using hm⟩

/-- Settles O18: the one transaction of SET_AL1, by its draw. -/
theorem setAl1WritesAlarm1 : Obligations.SetAl1WritesAlarm1 := by
  intro m
  refine ⟨decode_ofNat_command (i := .setAl1 m) rfl rfl, ?_⟩
  intro s hs hdt
  exact (issues_setAl1 hs hdt).write_by_draw (by decide : 7 + 4 ≤ registerCount)

/-- Settles O19: the one transaction of SET_AL2, by its draw. -/
theorem setAl2WritesAlarm2 : Obligations.SetAl2WritesAlarm2 := by
  intro m
  refine ⟨decode_ofNat_command (i := .setAl2 m) rfl rfl, ?_⟩
  intro s hs hdt
  exact (issues_setAl2 hs hdt).write_by_draw (by decide : 11 + 3 ≤ registerCount)

/-- Settles O20: the encoder's block is the one the stage of the set command writes. -/
theorem setCommandsWriteEncodedBlock : Obligations.SetCommandsWriteEncodedBlock := by
  intro s m i j hs hdt hlo hhi hij
  simp only [List.mem_cons, List.not_mem_nil, or_false, Prod.mk.injEq] at hij
  have hwrites : ∃ st b a t, exec i s = .next t ∧ t.result = some (succeeded (some (.bytes b))) ∧
      Issues j 0 st (.writeBlock a b) s := by
    rcases hij with ⟨rfl, rfl⟩ | ⟨rfl, rfl⟩ | ⟨rfl, rfl⟩
    · have hb := encodeDateTime_eq_block hdt hlo hhi
      exact ⟨_, _, _, _, exec_encDt_idle hs hdt, by rw [hb]; rfl, issues_setDt hs hdt hb⟩
    · exact ⟨_, _, _, _, exec_encAl1_idle m hs hdt, rfl, issues_setAl1 hs hdt⟩
    · exact ⟨_, _, _, _, exec_encAl2_idle m hs hdt, rfl, issues_setAl2 hs hdt⟩
  obtain ⟨st, b, a, t, hencode, hblock, hissues⟩ := hwrites
  obtain ⟨u, hu, hafter⟩ := hissues.afterTransaction
  exact ⟨b, a, t, u, _, hencode, hblock, hu, hafter.trace, transact_transaction _ _⟩

end Sys2Proof.Machine
end

section
/-! PROOF. The flag commands and the pin mode (spec/42_driver.md R146 to R150): one or two transactions, the result
and the frame of each, and what a failed one leaves (R140.3, R192). -/

namespace Sys2Proof.Machine

variable {s : State} {i : Instr} {k : Nat} {st : Stage}

/-! ### IS_RUNNING -/

/-- Settles O25: the two tests, each by its draw and its answer. -/
theorem isRunningTestsBothFlags : Obligations.IsRunningTestsBothFlags := by
  refine ⟨rfl, ?_⟩
  intro s hs stopped
  have htest := Issues.first (i := .isRunning) (x := .testBit 0x0F Config.osfMask) rfl rfl rfl hs rfl rfl
  refine ⟨htest.fail_stores_none rfl, htest.test_ok, fun hd hstopped => ?_⟩
  intro t disabled
  have hsecond := Issues.second (i := .isRunning) (s := t) (x := .testBit 0x0E Config.eoscMask)
    rfl rfl rfl rfl rfl
  exact ⟨htest.test_ok hd hstopped, hsecond.fail_stores_none rfl, hsecond.ok⟩

/-! ### The commands that end with a clear -/

/-- A command that ends with the clear of a bit, by the draw of the clear: `rok` and `rfail` are the results its
stage makes of it (R174, R176). -/
theorem Issues.clear_by_draw {a : RegAddr} {mask : Byte} {rok rfail : Result}
    (h : Issues i k st (.changeBit a mask .clear) s) (ha : a.toNat < registerCount)
    (hok : ∀ u, st.resume ⟨.changeBit a mask .clear, .ok, none⟩ u = u.finish rok)
    (hfail : ∀ u, st.resume ⟨.changeBit a mask .clear, .fail, none⟩ u = u.finish rfail) :
    ∃ n : Memory,
      (s.draw.ok = true →
        exec i s = .next (s.endedBy n ⟨.changeBit a mask .clear, .ok, none⟩ rok) ∧
        ∀ b, Memory.read n b =
          if b = a.toNat then Memory.read s.found b &&& ~~~mask else Memory.read s.found b) ∧
      (s.draw.ok = false →
        exec i s = .next (s.endedBy n ⟨.changeBit a mask .clear, .fail, none⟩ rfail) ∧
        ∀ b, Memory.read n b =
          if b = a.toNat then s.draw.left.getD 0 (Memory.read s.found b) else Memory.read s.found b) :=
  exists_memory_by_draw
    (fun hd => ⟨(h.ok hd).trans (congrArg _ (hok _)), read_applied_changeBit ha mask .clear _⟩)
    (fun hd => ⟨(h.fail hd).trans (congrArg _ (hfail _)), read_failed_one rfl ha _ _⟩)

/-- Settles O26: the two clears, each by its draw. -/
theorem enableOscClearsEoscThenOsf : Obligations.EnableOscClearsEoscThenOsf := by
  refine ⟨rfl, ?_⟩
  intro s hs
  have hfirst := Issues.first (i := .enableOsc) (x := .changeBit 0x0E Config.eoscMask .clear)
    rfl rfl rfl hs rfl rfl
  refine ⟨fun hd => ⟨_, hfirst.fail hd, read_failed_one rfl (by decide) _ _⟩, fun hd => ?_⟩
  refine ⟨(Transaction.changeBit 0x0E Config.eoscMask .clear).applied s.found, _, hfirst.ok hd, rfl,
    read_applied_changeBit (by decide) Config.eoscMask .clear _, ?_⟩
  exact Issues.clear_by_draw (Issues.second (i := .enableOsc) rfl rfl rfl rfl rfl) (by decide)
    (fun _ => rfl) (fun _ => rfl)

/-- What R148 and R149 say of the command `i` that reads and acknowledges the flag `mask` of the status register. -/
def ReadsAndAcknowledges (i : Instr) (mask : Byte) : Prop :=
  ∀ s : State, s.seq = .idle →
    let fired := bitIsSet (Memory.read s.found 0x0F) mask
    (s.draw.ok = false → exec i s = .next (s.endedBy s.found ⟨.testBit 0x0F mask, .fail, none⟩ busFailed)) ∧
    (s.draw.ok = true → fired = false → exec i s = .next (s.endedBy s.found
      ⟨.testBit 0x0F mask, .ok, some (.bit false)⟩ (succeeded (some (.bool false))))) ∧
    (s.draw.ok = true → fired = true →
      let t := s.goesOn s.found ⟨.testBit 0x0F mask, .ok, some (.bit true)⟩ i { flag := some true }
      exec i s = .next t ∧
      ∃ n : Memory,
        (t.draw.ok = true →
          exec i t = .next (t.endedBy n ⟨.changeBit 0x0F mask .clear, .ok, none⟩
            (succeeded (some (.bool true)))) ∧
          ∀ a, Memory.read n a =
            if a = 0x0F then Memory.read t.found a &&& ~~~mask else Memory.read t.found a) ∧
        (t.draw.ok = false →
          exec i t = .next (t.endedBy n ⟨.changeBit 0x0F mask .clear, .fail, none⟩
            (succeeded (some (.bool true)))) ∧
          ∀ a, Memory.read n a =
            if a = 0x0F then t.draw.left.getD 0 (Memory.read t.found a) else Memory.read t.found a))

/-- The test, and the acknowledging clear, each by its draw. -/
theorem readsAndAcknowledges {mask : Byte} (hc : i.isCommand = true) (hst : commandStages i = firedStages mask)
    (ha : ∀ s, admission i s = none) : ReadsAndAcknowledges i mask := by
  intro s hs fired
  have htest := Issues.first (x := .testBit 0x0F mask) hc hst rfl hs (ha _) rfl
  refine ⟨htest.fail_stores_none rfl, htest.test_ok, fun hd hfired => ⟨htest.test_ok hd hfired, ?_⟩⟩
  exact Issues.clear_by_draw (Issues.second hc hst rfl (ha _) rfl) (by decide) (fun _ => rfl) (fun _ => rfl)

/-- Settles O27: IS_AL1_SET reads and acknowledges A1F. -/
theorem isAl1SetReadsAndAcknowledges : Obligations.IsAl1SetReadsAndAcknowledges :=
  ⟨rfl, readsAndAcknowledges (i := .isAl1Set) rfl rfl fun _ => rfl⟩

/-- Settles O28: IS_AL2_SET reads and acknowledges A2F. -/
theorem isAl2SetReadsAndAcknowledges : Obligations.IsAl2SetReadsAndAcknowledges :=
  ⟨rfl, readsAndAcknowledges (i := .isAl2Set) rfl rfl fun _ => rfl⟩

/-! ### SET_INT_PIN -/

/-- The masked write of a pin mode keeps bits 7:5 and sets bits 4:0 (R150). -/
theorem maskedByte_pinField (b : Byte) (p : BitVec 5) :
    maskedByte b Config.pinFieldMask (argByte p) = (b &&& 0xE0) ||| p.setWidth 8 := by
  have hfits : argByte p &&& Config.pinFieldMask = p.setWidth 8 := by
    have hlow : (argByte p).toNat < 2 ^ 5 := by
      have := p.isLt
      simp [argByte]
      omega
    exact BitVec.eq_of_toNat_eq
      ((toNat_and_lowMask (argByte p) (n := 5) (by decide)).trans (Nat.mod_eq_of_lt hlow))
  rw [maskedByte, hfits]
  rfl

/-- Settles O29: the admission of the pin mode, or the one transaction by its draw. -/
theorem setIntPinWritesPinField : Obligations.SetIntPinWritesPinField := by
  intro p
  constructor
  · intro hp s hs
    exact (exec_refused_iff rfl).mpr (if_neg (mt List.contains_iff_mem.mp hp))
  · intro hp
    have hadmit : Config.intPinModes.contains p = true := List.contains_iff_mem.mpr hp
    refine ⟨decode_ofNat_command (i := .setIntPin p) rfl hadmit, ?_⟩
    intro s hs
    have hissues := Issues.first (i := .setIntPin p) (x := .writeMasked 0x0E Config.pinFieldMask (argByte p))
      rfl rfl rfl hs (admitPinMode_none.mpr hadmit) rfl
    refine exists_memory_by_draw (fun hd => ⟨hissues.ok hd, fun a => ?_⟩)
      (fun hd => ⟨hissues.fail hd, read_failed_one rfl (by decide) _ _⟩)
    rw [← maskedByte_pinField]
    exact read_applied_writeMasked (by decide) _ _ _ _

/-! ### Failed transactions -/

/-- A trace entry that failed was drawn so. -/
theorem draw_of_failed {t : State} {e : TraceEntry} (h : exec i s = .next t) (he : t.trace = s.trace ++ [e])
    (hfail : e.outcome = .fail) : s.draw.ok = false := by
  rcases exec_issues h with ⟨q, r, rfl⟩ | ⟨x, hx⟩
  · simp at he
  · rw [hx.entry he] at hfail
    exact (transact_outcome x s).1.mp hfail

/-- Settles O49: a first transaction that fails ends the command with Error(BUS_FAIL), a second one with the result
its command gives a failure. -/
theorem failedTransactionEndsCommand : Obligations.FailedTransactionEndsCommand := by
  intro i s t e hc h he hfail
  have hd := draw_of_failed h he hfail
  rcases exec_cases h with ⟨_, s₀, hs, hfirst⟩ | ⟨_, x, l, r, rfl, hl, hseq, _, _, _, _, _, hr⟩ | ⟨hbus, _⟩
  · have hstart := hs.first
    obtain rfl := hs.eq_with
    have hnot : ¬(s.seq = .busy i 1 { flag := some true } ∧ (i = .isAl1Set ∨ i = .isAl2Set)) := by
      rintro ⟨hseq, _⟩
      simp [hseq] at hstart
    cases hfirst with
    | pure r next => simp [next] at he
    | ended x r next _ _ _ _ _ failing =>
      rw [next, failing hd]
      exact ⟨rfl, fun hsecond => absurd hsecond hnot, fun _ => rfl⟩
    | goesOn _ _ _ _ _ _ succeeded => exact absurd (hd.symm.trans succeeded) Bool.false_ne_true
  · rw [hr hd, hseq]
    refine ⟨rfl, ?_, ?_⟩
    · rintro ⟨_, halarm⟩
      rw [if_pos halarm]
      rfl
    · intro hnot
      have hother : ¬(i = .isAl1Set ∨ i = .isAl2Set) := by
        rintro (rfl | rfl) <;> cases hl <;> simp at hnot
      rw [if_neg hother]
      rfl
  · rw [hc] at hbus
    cases hbus

end Sys2Proof.Machine
end

section
/-! PROOF. The block issues no transaction outside a command (spec/43_bus.md R170; spec/20_memory.md R50, R51). -/

namespace Sys2Proof.Machine

variable {s s₀ t : State} {c i : Instr} {e : TraceEntry}

/-- While Idle no bus row has a step (R170; log entry 8). -/
theorem exec_row_idle (hc : i.isCommand = false) (hs : s.seq = .idle) : exec i s = .fault .notIssued := by
  obtain ⟨x, hx⟩ := exists_rowTransaction hc s.busPort
  rw [exec_row hx, transactInHand_idle hs]

/-- A bus row that answers a next state is the one the command in hand issues at its step (R170). -/
theorem rowIssued_of_exec_row (hc : i.isCommand = false) (h : exec i s = .next t) :
    ∃ c n l, c.isCommand = true ∧ s.seq = .busy c n l ∧ rowIssued s c n l = some i := by
  obtain ⟨x, hx⟩ := exists_rowTransaction hc s.busPort
  rcases exec_cases h with ⟨hc', _⟩ | ⟨hc', _⟩ | ⟨_, x, c, n, st, hcommand, hs, hrow, _⟩
  · exact absurd hc' (by simp [hc])
  · exact absurd hc' (by simp [hc])
  · exact ⟨c, n, st.expects, hcommand, hs, hrow⟩

/-- A transaction a command issues is legal (R51, R173, R174). -/
theorem exec_command_legal (hc : c.isCommand = true) (h : exec c s = .next t) (he : t.trace = s.trace ++ [e]) :
    e.transaction.refusal = none := by
  obtain ⟨k, st, hst, _, _, hm, _⟩ := exec_command_performs hc h he
  exact ((portBlind_transactionStages c st (List.mem_of_getElem? hst)).own hm).2

/-- What a step that answers a next state runs is a command: a bus row in hand has no stage of its own. -/
theorem StepRuns.isCommand_of_next (h : StepRuns s c s₀) (he : exec c s₀ = .next t) : c.isCommand = true := by
  cases h with
  | accepted _ _ word => exact isCommand_of_decode_command word
  | inHand busy =>
    cases hc : c.isCommand with
    | true => rfl
    | false =>
      obtain ⟨c', n, l, hcommand, hs, _⟩ := rowIssued_of_exec_row hc he
      rw [busy] at hs
      cases hs
      rw [hc] at hcommand
      exact hcommand

/-- Settles O53: a step that adds to the trace ran a command, and the transaction is one of that command's. -/
theorem transactionsBelongToCommands : Obligations.TransactionsBelongToCommands := by
  refine ⟨fun i s => exec_row_idle, fun i s t => rowIssued_of_exec_row, fun s t e h he => ?_⟩
  rcases step_next_cases h with rfl | ⟨c, s₀, hrun, hexec⟩
  · simp at he
  · have hc := hrun.isCommand_of_next hexec
    have htrace : t.trace = s₀.trace ++ [e] := by cases hrun <;> exact he
    refine ⟨c, hc, commandsReachOnlyTheirRegisters c s₀ t e hc hexec htrace, ?_,
      exec_command_legal hc hexec htrace, rfl⟩
    cases hrun with
    | inHand busy => exact .inl ⟨_, _, busy⟩
    | accepted idle oldest word => exact .inr ⟨idle, _, _, oldest, word⟩

end Sys2Proof.Machine
end

section
/-! PROOF. What the command in hand makes of the bus row it issues at its step (spec/43_bus.md R170; spec/42_driver.md
R140 to R151): one case per row of `rowIssued`. -/

namespace Sys2Proof.Machine

variable {s : State} {c i : Instr} {n : Nat} {l : Locals} {st : Stage} {x : Transaction}

/-! ### The answers, row by row -/

/-- The value a command decodes from the bytes of its READ_BLOCK (R141, R145, R151). -/
def readValue (s : State) (c : Instr) (b : List Byte) : Value :=
  match c with
  | .getDt => .dateTime (decodeDateTime s.yearBase b)
  | .getTemp => .temperature (decodeTemperature b)
  | _ => .bytes b

/-- A READ_BLOCK has the length its command decodes; DUMP_REGS takes any (R141, R145). -/
def fitsCommand (c : Instr) : Transaction → Prop
  | .readBlock _ k => (c = .getDt → k = 7) ∧ (c = .getTemp → k = 2)
  | _ => True

/-- The result with which the command `c` ends once the bus row `i` of its step answered `e`; none where it goes
on. -/
def rowEnds (s : State) (c : Instr) (n : Nat) (e : TraceEntry) : Instr → Option Result
  | .readBlock =>
    some (match e.bytes with
      | some b => succeeded (some (readValue s c b))
      | none => busFailed)
  | .testBit =>
    match e.bit with
    | some b => testEnds c n b
    | none => some busFailed
  | .changeBit => clearEnds c n e.isOk
  | _ => some (if e.isOk then succeeded none else busFailed)

/-- The locals a command that goes on keeps of its row's answer: the bit a TEST_BIT read (R22). -/
def rowKeeps (e : TraceEntry) : Instr → Locals
  | .testBit => { flag := e.bit }
  | _ => Locals.empty

/-- The converse of `rowTransaction_operands`: the transaction of a bus row has that row's kind code (R95). -/
theorem decode_rowTransaction {p : BusOperands} (hx : rowTransaction p i = some x) :
    decode (.bus x.kind) = .ok i := by
  cases i with
  | readBlock | writeBlock | testBit | changeBit | writeMasked =>
    cases hx
    rfl
  | _ => cases hx

/-- `st` is the stage of the command `c` at step `n` with locals `l`, and issues the bus row `i` from `s`. -/
structure RowStage (s : State) (c : Instr) (n : Nat) (l : Locals) (i : Instr) (st : Stage) : Prop where
  stage : (transactionStages c)[n]? = some st
  expects : st.expects = l
  admitted : admission c s = none
  issues {x : Transaction} (row : decode (.bus x.kind) = .ok i) (fits : fitsCommand c x) : st.issues x s = true
  answers (m : Memory) (e : TraceEntry) (busy : s.seq = .busy c n l) :
    st.resume e (s.issued m e) = s.answered m e c (rowKeeps e i) (rowEnds s c n e i)

/-- A stage that reads a block ends the command with the value it decodes, or with Error(BUS_FAIL) (R140.3). -/
theorem rowStage_read {reg : Reg} {k : Nat} {takes : Transaction → Bool} {value : State → List Byte → Value}
    (hst : (transactionStages c)[n]? = some (readStage reg k takes value)) (ha : admission c s = none)
    (htakes : ∀ a k, fitsCommand c (.readBlock a k) → takes (.readBlock a k) = true)
    (hvalue : ∀ m e b, value (s.issued m e) b = readValue s c b) :
    RowStage s c n Locals.empty .readBlock (readStage reg k takes value) where
  stage := hst
  expects := rfl
  admitted := ha
  issues {x} row fits := by
    cases x <;> cases row
    exact issues_of (y := .readBlock (regAddr reg) k) rfl (htakes _ _ fits)
  answers m e _ := by
    simp only [readStage, rowEnds]
    cases e.bytes with
    | none => rfl
    | some b =>
      simp only [hvalue]
      rfl

/-- A stage that writes a block ends the command whatever the outcome (R140.3). -/
theorem rowStage_write {reg : Reg} {block : State → Except Cause (List Byte)} {b : List Byte}
    (hst : (transactionStages c)[n]? = some (writeStage reg block)) (ha : admission c s = none)
    (hblock : block s = .ok b) : RowStage s c n Locals.empty .writeBlock (writeStage reg block) where
  stage := hst
  expects := rfl
  admitted := ha
  issues {x} row _ := by
    cases x <;> cases row
    exact issues_of (y := .writeBlock (regAddr reg) b) (by simp only [writeStage, hblock]) rfl
  answers m e _ := by
    simp only [writeStage, rowEnds]
    cases e.isOk <;> rfl

/-- A stage that tests a bit: for each answer it ends the command as `testEnds` says, or keeps the bit. -/
theorem rowStage_test {expects : Locals} {reg : Reg} {mask : Byte} {goOn : Bool → State → State}
    (hst : (transactionStages c)[n]? = some (testStage expects reg mask goOn)) (ha : admission c s = none)
    (hgo : ∀ b u, goOn b u = match testEnds c n b with
      | some r => u.finish r
      | none => u.keepFlag b)
    (hfirst : ∀ b, testEnds c n b = none → n = 0) :
    RowStage s c n expects .testBit (testStage expects reg mask goOn) where
  stage := hst
  expects := rfl
  admitted := ha
  issues {x} row _ := by
    cases x <;> cases row
    exact issues_of (y := .testBit (regAddr reg) mask) rfl rfl
  answers m e busy := by
    simp only [testStage, rowEnds, rowKeeps]
    cases e.bit with
    | none => rfl
    | some b =>
      simp only [hgo]
      cases hr : testEnds c n b with
      | some r => rfl
      | none =>
        obtain rfl := hfirst b hr
        simp only [State.keepFlag, State.issued, busy]
        rfl

/-- A stage that clears a bit goes on, or ends the command, as `clearEnds` says. -/
theorem rowStage_clear {y : Transaction} (hst : (transactionStages c)[n]? = some st) (hl : st.expects = l)
    (ha : admission c s = none) (hmove : st.move s = .issues y) (htakes : st.takes = isChangeBit)
    (hanswers : ∀ m e, s.seq = .busy c n l →
      st.resume e (s.issued m e) = s.answered m e c Locals.empty (clearEnds c n e.isOk)) :
    RowStage s c n l .changeBit st where
  stage := hst
  expects := hl
  admitted := ha
  issues {x} row _ := by
    cases x <;> cases row
    exact issues_of hmove (by rw [htakes]; rfl)
  answers := hanswers

/-- The masked write of SET_INT_PIN ends it whatever the outcome (R150). -/
theorem rowStage_setIntPin {p : BitVec 5} (hp : Config.intPinModes.contains p = true) :
    ∃ st, RowStage s (.setIntPin p) 0 Locals.empty .writeMasked st := by
  refine ⟨_, rfl, rfl, admitPinMode_none.mpr hp, fun {x} row _ => ?_, fun m e _ => ?_⟩
  · cases x <;> cases row
    rfl
  · simp only [rowEnds]
    cases e.isOk <;> rfl

/-- Where `rowIssued` names a bus row, the stage of the command in hand issues it and answers as the row's
statement says (R50, R170). -/
theorem exists_rowStage (h : rowIssued s c n l = some i) : ∃ st, RowStage s c n l i st := by
  revert h
  fun_cases rowIssued s c n l <;> intro h <;> cases h
  · exact ⟨_, rowStage_read (c := .getDt) rfl rfl (fun _ _ fits => beq_iff_eq.mpr (fits.1 rfl)) fun _ _ _ => rfl⟩
  next hdt =>
    simp only [Bool.and_eq_true, decide_eq_true_eq] at hdt
    obtain ⟨⟨hvalid, hlo⟩, hhi⟩ := hdt
    exact ⟨_, rowStage_write (c := .setDt) rfl (admitDateTime_none.mpr hvalid)
      (encodeDateTime_eq_block hvalid hlo hhi)⟩
  next m hvalid => exact ⟨_, rowStage_write (c := .setAl1 m) rfl (admitDateTime_none.mpr hvalid) rfl⟩
  next m hvalid => exact ⟨_, rowStage_write (c := .setAl2 m) rfl (admitDateTime_none.mpr hvalid) rfl⟩
  · exact ⟨_, rowStage_read (c := .getTemp) rfl rfl (fun _ _ fits => beq_iff_eq.mpr (fits.2 rfl)) fun _ _ _ => rfl⟩
  · exact ⟨_, rowStage_test (c := .isRunning) rfl rfl (fun b _ => by cases b <;> rfl) fun _ _ => rfl⟩
  · exact ⟨_, rowStage_test (c := .isRunning) (n := 1) rfl rfl (fun _ _ => rfl) nofun⟩
  · refine ⟨_, rowStage_clear (c := .enableOsc) rfl rfl rfl rfl rfl fun m e busy => ?_⟩
    simp only [clearStage]
    cases e.isOk with
    | false => rfl
    | true =>
      simp only [State.issued, busy]
      rfl
  · refine ⟨_, rowStage_clear (c := .enableOsc) (n := 1) rfl rfl rfl rfl rfl fun m e _ => ?_⟩
    simp only [clearStage]
    cases e.isOk <;> rfl
  · exact ⟨_, rowStage_test (c := .isAl1Set) rfl rfl (fun b _ => by cases b <;> rfl) fun _ _ => rfl⟩
  · exact ⟨_, rowStage_clear (c := .isAl1Set) (n := 1) rfl rfl rfl rfl rfl fun _ _ _ => rfl⟩
  · exact ⟨_, rowStage_test (c := .isAl2Set) rfl rfl (fun b _ => by cases b <;> rfl) fun _ _ => rfl⟩
  · exact ⟨_, rowStage_clear (c := .isAl2Set) (n := 1) rfl rfl rfl rfl rfl fun _ _ _ => rfl⟩
  next p hp => exact rowStage_setIntPin hp
  · exact ⟨_, rowStage_read (c := .dumpRegs) rfl rfl (fun _ _ _ => rfl) fun _ _ _ => rfl⟩

/-! ### The answers, by the draw -/

/-- The row of the command in hand performs its transaction, and the command goes on with its answer (R170). -/
theorem RowStage.exec_performs (h : RowStage s c n l i st) (hs : s.seq = .busy c n l)
    (hx : rowTransaction s.busPort i = some x) (hlegal : x.refusal = none) (hfits : fitsCommand c x) :
    exec i s = .next (st.perform x s) := by
  have hrow : decode (.bus x.kind) = .ok i := decode_rowTransaction hx
  rw [exec_row hx, transactInHand_busy (by rw [hs, h.expects]) h.stage hlegal h.admitted (h.issues hrow hfits)]

/-- With the draw ok, the row of the command in hand answers the state after the transaction, with what it
returned. -/
theorem exec_row_ok (hs : s.seq = .busy c n l) (hrow : rowIssued s c n l = some i)
    (hx : rowTransaction s.busPort i = some x) (hlegal : x.refusal = none) (hfits : fitsCommand c x)
    (hd : s.draw.ok = true) :
    let e : TraceEntry := ⟨x, .ok, x.returned s.found⟩
    exec i s = .next (s.answered (x.applied s.found) e c (rowKeeps e i) (rowEnds s c n e i)) := by
  obtain ⟨st, hst⟩ := exists_rowStage hrow
  rw [hst.exec_performs hs hx hlegal hfits, perform_ok st x hd, hst.answers _ _ hs]

/-- With the draw fail, it answers the state after the transaction, with what the draw left (R176). -/
theorem exec_row_fail (hs : s.seq = .busy c n l) (hrow : rowIssued s c n l = some i)
    (hx : rowTransaction s.busPort i = some x) (hlegal : x.refusal = none) (hfits : fitsCommand c x)
    (hd : s.draw.ok = false) :
    let e : TraceEntry := ⟨x, .fail, none⟩
    exec i s = .next (s.answered (x.failed s.draw.left s.found) e c (rowKeeps e i) (rowEnds s c n e i)) := by
  obtain ⟨st, hst⟩ := exists_rowStage hrow
  rw [hst.exec_performs hs hx hlegal hfits, perform_fail st x hd, hst.answers _ _ hs]

end Sys2Proof.Machine
end

section
/-! PROOF. The five bus rows with a command in hand (spec/43_bus.md R171 to R176): the answer of the command by the
draw, and every register after the transaction. -/

namespace Sys2Proof.Machine

/-! ### The bits of a byte -/

theorem ofNat_two_pow (w k : Nat) : BitVec.ofNat w (2 ^ k) = BitVec.twoPow w k :=
  BitVec.eq_of_toNat_eq (BitVec.toNat_twoPow w k).symm

/-- TEST_BIT with the mask `2 ^ k` answers bit `k` (R173). -/
theorem bitIsSet_two_pow (b : Byte) {k : Nat} (hk : k < 8) :
    bitIsSet b (BitVec.ofNat 8 (2 ^ k)) = b.getLsbD k := by
  have hne : BitVec.twoPow 8 k ≠ 0 := fun h => by
    have hbit := congrArg (BitVec.getLsbD · k) h
    simp [hk] at hbit
  rw [bitIsSet, ofNat_two_pow, BitVec.and_twoPow]
  cases b.getLsbD k with
  | true => exact bne_iff_ne.mpr hne
  | false => rfl

theorem isOneBit_two_pow : ∀ k < 8, isOneBit (BitVec.ofNat 8 (2 ^ k)) = true := by decide

theorem oneBitRefusal_two_pow {a : RegAddr} {m : Byte} {k : Nat} (ha : a.toNat < registerCount) (hk : k < 8)
    (hm : m = BitVec.ofNat 8 (2 ^ k)) : oneBitRefusal a m = none := by
  rw [oneBitRefusal, addressRefusal, if_pos ha, hm, isOneBit_two_pow k hk]
  rfl

/-- CHANGE_BIT sets or clears bit `k` and keeps the others (R174). -/
theorem getLsbD_changedBit (b : Byte) (d : BitDirection) {j k : Nat} (hj : j < 8) :
    (changedBit b (BitVec.ofNat 8 (2 ^ k)) d).getLsbD j = if j = k then d == .set else b.getLsbD j := by
  have hmask : (BitVec.ofNat 8 (2 ^ k)).getLsbD j = decide (j = k) := by
    rw [BitVec.getLsbD_ofNat, Nat.testBit_two_pow, decide_eq_true hj, Bool.true_and]
    exact decide_eq_decide.mpr eq_comm
  cases d with
  | set =>
    rw [changedBit, BitVec.getLsbD_or, hmask]
    by_cases h : j = k <;> simp [h]
  | clear =>
    rw [changedBit, BitVec.getLsbD_and, BitVec.getLsbD_not, hmask]
    by_cases h : j = k <;> simp [h, hj]

/-- WRITE_MASKED takes the bits its mask selects from the value and keeps the others (R175). -/
theorem getLsbD_maskedByte (b m v : Byte) {j : Nat} (hj : j < 8) :
    (maskedByte b m v).getLsbD j = if m.getLsbD j then v.getLsbD j else b.getLsbD j := by
  simp only [maskedByte, BitVec.getLsbD_or, BitVec.getLsbD_and, BitVec.getLsbD_not, hj, decide_true]
  cases m.getLsbD j <;> simp

/-! ### The statements -/

/-- Settles O30: the row of a read stage, by its draw. -/
theorem readBlockReturnsBytes : Obligations.ReadBlockReturnsBytes := by
  refine ⟨rfl, ?_⟩
  intro s c n l hs hrow hdt htemp hlen hend x
  have hlegal : x.refusal = none := if_pos ⟨hlen, hend⟩
  refine ⟨fun hd => ⟨_, readValue s c _, exec_row_ok hs hrow rfl hlegal ⟨hdt, htemp⟩ hd, length_block _ _ _,
    fun _ => getElem?_block _, ?_, ?_, ?_⟩, fun hd => ?_⟩
  · rintro rfl; rfl
  · rintro rfl; rfl
  · rintro rfl; rfl
  · rw [exec_row_fail hs hrow rfl hlegal ⟨hdt, htemp⟩ hd, failed_readBlock]
    rfl

/-- Settles O31: the row of a write stage, by its draw. -/
theorem writeBlockStoresBytes : Obligations.WriteBlockStoresBytes := by
  refine ⟨rfl, ?_⟩
  intro s c n l hs hrow hend v a0 x
  exact exists_memory_by_draw
    (fun hd => ⟨exec_row_ok hs hrow rfl (if_pos hend) trivial hd, read_applied_writeBlock hend _⟩)
    (fun hd => ⟨exec_row_fail hs hrow rfl (if_pos hend) trivial hd, read_failed (x := x) hend _ _⟩)

/-- Settles O32: the row of a test stage, by its draw. -/
theorem testBitReturnsOneBit : Obligations.TestBitReturnsOneBit := by
  refine ⟨rfl, ?_⟩
  intro s c n l k hs hrow ha hk hm x b
  have hlegal : x.refusal = none := oneBitRefusal_two_pow ha hk hm
  have hbit : bitIsSet (Memory.read s.found s.busPort.addr.toNat) s.busPort.mask = b := by
    rw [hm, bitIsSet_two_pow _ hk]
  constructor
  · intro hd
    rw [exec_row_ok hs hrow rfl hlegal trivial hd, ← hbit]
    rfl
  · intro hd
    rw [exec_row_fail hs hrow rfl hlegal trivial hd, failed_testBit]
    rfl

/-- Settles O33: the row of a clearing stage, by its draw. -/
theorem changeBitChangesOneBit : Obligations.ChangeBitChangesOneBit := by
  refine ⟨rfl, ?_⟩
  intro s c n l k hs hrow ha hk hm a0 x
  have hlegal : x.refusal = none := oneBitRefusal_two_pow ha hk hm
  have hread := read_applied_changeBit ha s.busPort.mask s.busPort.dir s.found
  refine exists_memory_by_draw
    (fun hd => ⟨exec_row_ok hs hrow rfl hlegal trivial hd, fun j hj => ?_, fun a hne => ?_⟩)
    (fun hd => ⟨exec_row_fail hs hrow rfl hlegal trivial hd, read_failed_one rfl ha _ _⟩)
  · rw [hread, if_pos rfl, hm, getLsbD_changedBit _ _ hj]
  · rw [hread, if_neg hne]

/-- Settles O34: the row of the masked write, by its draw. -/
theorem writeMaskedWritesSelectedBits : Obligations.WriteMaskedWritesSelectedBits := by
  refine ⟨rfl, ?_⟩
  intro s c n l hs hrow ha a0 x
  have hread := read_applied_writeMasked ha s.busPort.mask s.busPort.value s.found
  refine exists_memory_by_draw
    (fun hd => ⟨exec_row_ok hs hrow rfl (if_pos ha) trivial hd, fun j hj => ?_, fun a hne => ?_⟩)
    (fun hd => ⟨exec_row_fail hs hrow rfl (if_pos ha) trivial hd, read_failed_one rfl ha _ _⟩)
  · rw [hread, if_pos rfl, getLsbD_maskedByte _ _ _ hj]
  · rw [hread, if_neg hne]

end Sys2Proof.Machine
end

section
/-! PROOF. How a command ends with an Error (spec/60_exceptions.md R190, R191): every result a command leaves is
legal, and its cause says whether a transaction came before it. -/

namespace Sys2Proof.Machine

variable {s t : State} {i : Instr} {r : Result} {x : Transaction}

/-! ### The result of a command that ended -/

/-- The result with which a command ends is a legal one (R23). -/
theorem exec_result_legal (hc : i.isCommand = true) (h : exec i s = .next t) (hidle : t.seq = .idle)
    (hr : t.result = some r) : resultOk (some r) = true := by
  cases exec_command_cases hc h with
  | pure q next legal =>
    subst next
    cases hr
    exact legal
  | ended m e q next legal =>
    subst next
    cases hr
    exact legal
  | goesOn m e l next =>
    subst next
    cases hidle

/-- Of an Error the caller sees neither its cause nor a value (R191, R195). -/
theorem visible_of_error (hlegal : resultOk (some r) = true) (hstatus : r.status = .error) :
    visible r = (.error, none) := by
  have hvalue : r.value = none := by
    simp only [resultOk, hstatus, Bool.and_eq_true, Option.isNone_iff_eq_none] at hlegal
    exact hlegal.2
  rw [visible, hstatus, hvalue]

/-- A legal result without a cause is a Success (R190). -/
theorem success_of_no_cause (hlegal : resultOk (some r) = true) (hcause : r.cause = .none) :
    r.status = .success := by
  cases hstatus : r.status with
  | success => rfl
  | error => simp [resultOk, hstatus, hcause] at hlegal

/-- Settles O47: whatever its cause, an Error shows the caller its status and no value. -/
theorem errorCausesHiddenFromCaller : Obligations.ErrorCausesHiddenFromCaller := by
  intro i j s s' t t' r r' hi hj h hidle hr herror h' hidle' hr' herror'
  rw [visible_of_error (exec_result_legal hi h hidle hr) herror,
    visible_of_error (exec_result_legal hj h' hidle' hr') herror']

/-! ### The cause of a result -/

/-- How the command `i`, found in `s`, came to end in `t` with the result `r`: without a transaction, or with one
of its own; and the causes each way can have (R190). -/
inductive CommandEnd (i : Instr) (s t : State) (r : Result) : Prop
  | pure (untraced : t.trace = s.trace)
      (cause : r.cause = .none ∨ (r.cause = .yearRange ∧ (i = .encDt ∨ i = .setDt)))
  | transacted (e : TraceEntry) (traced : t.trace = s.trace ++ [e])
      (reach : mayIssue i e.transaction = true)
      (cause : r.cause = .none ∨ (r.cause = .busFail ∧ e.outcome = .fail))

/-- A command that ends after its transaction `x` ends with BUS_FAIL only where `x` failed. -/
theorem CommandEnd.of_transaction (hx : AfterTransaction x s t) (reach : mayIssue i x = true)
    (cause : r.cause = .none ∨ r.cause = .busFail) (failed : r.cause = .busFail → s.draw.ok = false) :
    CommandEnd i s t r :=
  .transacted (transact x s).1 hx.trace (by rw [transact_transaction]; exact reach)
    (cause.imp_right fun hfail => ⟨hfail, (transact_outcome x s).1.mpr (failed hfail)⟩)

/-- A command that ended ended in one of these ways, in its first stage or in its second. -/
theorem exec_commandEnd (hc : i.isCommand = true) (h : exec i s = .next t) (hidle : t.seq = .idle)
    (hr : t.result = some r) : CommandEnd i s t r := by
  rcases exec_cases h with ⟨_, s₀, hs, hfirst⟩ |
    ⟨_, x, _, q, rfl, _, _, _, _, reach, cause, failed, _⟩ | ⟨hbus, _⟩
  · cases hfirst with
    | pure q next _ cause =>
      obtain rfl := hs.eq_with
      subst next
      cases hr
      exact .pure rfl cause
    | ended x q next _ _ reach cause failed _ =>
      have hx : AfterTransaction x s t := hs.afterTransaction next
      obtain rfl := hs.eq_with
      subst next
      cases hr
      exact .of_transaction hx reach cause failed
    | goesOn x l next =>
      subst next
      cases hidle
  · cases hr
    exact .of_transaction ⟨_, _, rfl⟩ reach cause failed
  · rw [hc] at hbus
    cases hbus

/-- Only ENC_DT and SET_DT end with YEAR_RANGE, before any transaction. -/
theorem CommandEnd.of_yearRange (h : CommandEnd i s t r) (hcause : r.cause = .yearRange) :
    (i = .encDt ∨ i = .setDt) ∧ t.trace = s.trace := by
  cases h with
  | pure untraced cause => simpa [hcause, untraced] using cause
  | transacted e _ _ cause => simp [hcause] at cause

/-- BUS_FAIL comes of a transaction that failed. -/
theorem CommandEnd.of_busFail (h : CommandEnd i s t r) (hcause : r.cause = .busFail) :
    ∃ e, t.trace = s.trace ++ [e] ∧ e.outcome = .fail := by
  cases h with
  | pure _ cause => simp [hcause] at cause
  | transacted e traced _ cause =>
    refine ⟨e, traced, ?_⟩
    simpa [hcause] using cause

/-- A command that issues no transaction and checks no year ends without a cause. -/
theorem CommandEnd.no_cause (h : CommandEnd i s t r) (hbus : ∀ x, mayIssue i x = false)
    (hyear : ¬(i = .encDt ∨ i = .setDt)) : r.cause = .none := by
  cases h with
  | pure _ cause => exact cause.resolve_right fun hrange => hyear hrange.2
  | transacted e _ reach _ => simp [hbus] at reach

/-- A command that issues no transaction and checks no year ends with Success (R104). -/
theorem exec_ends_success (hc : i.isCommand = true) (h : exec i s = .next t) (hidle : t.seq = .idle)
    (hr : t.result = some r) (hbus : ∀ x, mayIssue i x = false) (hyear : ¬(i = .encDt ∨ i = .setDt)) :
    r.status = .success ∧ r.cause = .none := by
  have hcause := (exec_commandEnd hc h hidle hr).no_cause hbus hyear
  exact ⟨success_of_no_cause (exec_result_legal hc h hidle hr) hcause, hcause⟩

/-- Settles O48: the causes each command can end with, by whether it issued a transaction. -/
theorem causesByCommand : Obligations.CausesByCommand := by
  refine ⟨rfl, rfl, rfl, fun i s t r hc h hidle hr => ?_⟩
  have hend := exec_commandEnd hc h hidle hr
  refine ⟨hend.of_yearRange, hend.of_busFail, fun hi => ?_, fun m hi => ?_⟩ <;>
  · simp only [List.mem_cons, List.not_mem_nil, or_false] at hi
    rcases hi with rfl | rfl <;> exact exec_ends_success hc h hidle hr (fun _ => rfl) (by simp)

end Sys2Proof.Machine
end

section
/-! PROOF. The order of the checks for a command just accepted (spec/60_exceptions.md R194; spec/42_driver.md R140,
R142). -/

namespace Sys2Proof.Machine

variable {s : State} {c i : Instr} {k : Nat} {l : Locals}

/-- The command `c` finds an operand on the ports that the spec refuses: a DT outside the invariant, a BLK of the
wrong length, or a pin mode outside INT_PIN_MODES (R93.4, R93.5, R121). -/
def RefusedOperand (c : Instr) (s : State) : Prop :=
  ((∃ m, c ∈ [.encDt, .encAl1 m, .encAl2 m, .setDt, .setAl1 m, .setAl2 m]) ∧ dateTimeValid s.dtPort = false) ∨
  (c = .decDt ∧ s.blkPort.length ≠ 7) ∨ (c = .decTemp ∧ s.blkPort.length ≠ 2) ∨
  (∃ p, c = .setIntPin p ∧ p ∉ Config.intPinModes)

/-- The admission of a command refuses each such operand (R193). -/
theorem RefusedOperand.exists_refusal (h : RefusedOperand c s) :
    c.isCommand = true ∧ ∃ q, admission c s = some q := by
  rcases h with ⟨⟨m, hc⟩, hdt⟩ | ⟨rfl, hlen⟩ | ⟨rfl, hlen⟩ | ⟨p, rfl, hp⟩
  · have hrefused := admitDateTime_refused (ne_true_of_eq_false hdt)
    simp only [List.mem_cons, List.not_mem_nil, or_false] at hc
    rcases hc with rfl | rfl | rfl | rfl | rfl | rfl <;> exact ⟨rfl, _, hrefused⟩
  · exact ⟨rfl, .blkLength, if_neg hlen⟩
  · exact ⟨rfl, .blkLength, if_neg hlen⟩
  · exact ⟨rfl, .pinMode, if_neg (mt List.contains_iff_mem.mp hp)⟩

/-- While a command with a refused operand is in hand, every bus row is refused, for its own transaction or for
that operand (R194.1). -/
theorem exec_row_refused_of_admission {q : Refusal} (hs : s.seq = .busy c k l) (ha : admission c s = some q)
    (hi : i.isCommand = false) : ∃ q', exec i s = .refused q' := by
  obtain ⟨x, hx⟩ := exists_rowTransaction hi s.busPort
  cases hq : x.refusal with
  | some q' => exact ⟨q', exec_row_refused hs hx hq⟩
  | none =>
    refine ⟨q, ?_⟩
    rw [exec_row hx]
    simp [transactInHand, hs, hq, ha]

/-- SET_DT in hand ends, before any transaction, for a year out of range (R142). -/
theorem exec_setDt_rejects_inHand (hs : s.seq = .busy .setDt 0 Locals.empty)
    (hdt : dateTimeValid s.dtPort = true)
    (hout : s.dtPort.year.toNat < s.yearBase ∨ s.yearBase + 200 ≤ s.dtPort.year.toNat) :
    exec .setDt s = .next (s.finish yearRejected) := by
  have hends : (writeStage .seconds fun s => encodeDateTime s.yearBase s.dtPort).move s = .ends yearRejected := by
    simp [writeStage, encodeDateTime_rejects hout, errorOf, yearRejected]
  exact (exec_next_iff rfl).mpr
    ⟨admitDateTime_none.mpr hdt, 0, _, s, rfl, .inr ⟨hs, rfl⟩, (run_ends hends).symm⟩

/-- SET_DT issues no transaction for a year out of range (R142). -/
theorem rowIssued_setDt_out
    (hout : s.dtPort.year.toNat < s.yearBase ∨ s.yearBase + 200 ≤ s.dtPort.year.toNat) :
    rowIssued s .setDt 0 Locals.empty = none := by
  refine if_neg fun h => ?_
  simp only [Bool.and_eq_true, decide_eq_true_eq] at h
  omega

/-- Settles O56: the admission refuses the command and each row alike, and SET_DT checks the year in the move
that would issue its transaction. -/
theorem checksPrecedeTransactions : Obligations.ChecksPrecedeTransactions := by
  intro s c hs
  have hrow : ∀ j ∈ [Instr.readBlock, .writeBlock, .testBit, .changeBit, .writeMasked],
      j.isCommand = false := by decide
  constructor
  · intro (hrefused : RefusedOperand c s)
    obtain ⟨hc, q, ha⟩ := hrefused.exists_refusal
    exact ⟨⟨q, (exec_refused_iff hc).mpr ha⟩, fun i hi => exec_row_refused_of_admission hs ha (hrow i hi)⟩
  · rintro ⟨rfl, hdt, hout⟩
    refine ⟨exec_setDt_rejects_inHand hs hdt hout, fun i hi t h => ?_⟩
    obtain ⟨c, n, l, _, hbusy, hissued⟩ := rowIssued_of_exec_row (hrow i hi) h
    obtain ⟨rfl, rfl, rfl⟩ : Instr.setDt = c ∧ 0 = n ∧ Locals.empty = l := by simpa [hs] using hbusy
    simp [rowIssued_setDt_out hout] at hissued

end Sys2Proof.Machine
end

section
/-! PROOF. While a command is in hand nothing else of the block moves (spec/70_reset_and_hazards.md R196, R216;
spec/10_state.md R22): another command finds the sequencer taken, a bus row is that of the command in hand or has
no step, and no stage looks at the requests that wait on the command port. -/

namespace Sys2Proof.Machine

variable {s s₀ t : State} {c i : Instr} {k : Nat} {l : Locals} {st : Stage} {q : List Request}

/-! ### Another instruction -/

/-- A command that has a step while one is in hand is that command (R216). -/
theorem eq_inHand_of_exec_command (hs : s.seq = .busy i k l) (hc : c.isCommand = true)
    (h : exec c s = .next t) : c = i := by
  obtain ⟨_, _, _, _, _, hstart, _⟩ := (exec_next_iff hc).mp h
  rcases hstart with ⟨hidle, _⟩ | ⟨hbusy, _⟩
  · simp [hs] at hidle
  · rw [hs] at hbusy
    cases hbusy
    rfl

/-- An instruction that is not the one in hand and has a step is the bus row of the transaction issued there
(log entries 8 and 10). -/
theorem rowIssued_of_exec_other (hs : s.seq = .busy i k l) (hne : c ≠ i) (h : exec c s = .next t) :
    rowIssued s i k l = some c := by
  cases hc : c.isCommand with
  | true => exact absurd (eq_inHand_of_exec_command hs hc h) hne
  | false =>
    obtain ⟨_, _, _, _, hbusy, hrow⟩ := rowIssued_of_exec_row hc h
    rw [hs] at hbusy
    cases hbusy
    exact hrow

/-! ### The command port -/

/-- `s` with other requests waiting on the command port. -/
def State.withQueue (s : State) (q : List Request) : State := { s with requests := q }

/-- A stage that does not look at the waiting requests, and leaves them waiting. -/
structure Stage.QueueBlind (st : Stage) : Prop where
  move (s : State) (q : List Request) : st.move (s.withQueue q) = st.move s
  resume (e : TraceEntry) (s : State) (q : List Request) :
    st.resume e (s.withQueue q) = (st.resume e s).withQueue q

/-- A transaction does not look at the waiting requests. -/
theorem transact_withQueue (x : Transaction) (s : State) (q : List Request) :
    transact x (s.withQueue q) = ((transact x s).1, (transact x s).2.withQueue q) := rfl

theorem Stage.QueueBlind.run (h : st.QueueBlind) (s : State) (q : List Request) :
    st.run (s.withQueue q) = (st.run s).withQueue q := by
  cases hm : st.move s with
  | ends r =>
    rw [run_ends hm, run_ends ((h.move s q).trans hm)]
    rfl
  | issues x =>
    rw [run_issues hm, run_issues ((h.move s q).trans hm), Stage.perform, transact_withQueue]
    exact h.resume _ _ q

/-- No stage of a command looks at the waiting requests: what it makes of a transaction's answer turns on the
outcome, and on the bytes or the bit returned. -/
theorem queueBlind_commandStages (i : Instr) : ∀ st ∈ commandStages i, st.QueueBlind := by
  cases i with
  | decDt | decTemp | encDt | encAl1 | encAl2 =>
    exact List.forall_mem_singleton.mpr ⟨fun _ _ => rfl, fun _ _ _ => rfl⟩
  | getDt | setDt | setAl1 | setAl2 | getTemp | setIntPin | dumpRegs =>
    refine List.forall_mem_singleton.mpr ⟨fun _ _ => rfl, fun e _ _ => ?_⟩
    rcases e with ⟨_, _ | _, _ | _ | _⟩ <;> rfl
  | isRunning | enableOsc | isAl1Set | isAl2Set =>
    refine List.forall_mem_cons.mpr ⟨⟨fun _ _ => rfl, fun e _ _ => ?_⟩,
      List.forall_mem_singleton.mpr ⟨fun _ _ => rfl, fun e _ _ => ?_⟩⟩ <;>
    rcases e with ⟨_, _ | _, _ | _ | _ | _⟩ <;> rfl
  | readBlock | writeBlock | testBit | changeBit | writeMasked => exact List.forall_mem_nil _

/-- A command's admission looks at the operand ports only. -/
theorem admission_withQueue (i : Instr) (s : State) : admission i (s.withQueue q) = admission i s := by
  cases i <;> rfl

/-- The stage a command starts does not depend on the waiting requests. -/
theorem StageStart.withQueue (h : StageStart i k l s s₀) :
    StageStart i k l (s.withQueue q) (s₀.withQueue q) := by
  rcases h with ⟨hs, hk, hl, rfl⟩ | ⟨hs, rfl⟩
  · exact .inl ⟨hs, hk, hl, rfl⟩
  · exact .inr ⟨hs, rfl⟩

/-- A command that answers a next state answers the same one whatever waits on the command port. -/
theorem exec_withQueue (hc : i.isCommand = true) (h : exec i s = .next t) :
    exec i (s.withQueue q) = .next (t.withQueue q) := by
  obtain ⟨ha, k, st, s₀, hst, hstart, rfl⟩ := (exec_next_iff hc).mp h
  have hrun := (queueBlind_commandStages i st (List.mem_of_getElem? hst)).run s₀ q
  exact (exec_next_iff hc).mpr
    ⟨(admission_withQueue i s).trans ha, k, st, _, hst, hstart.withQueue, hrun.symm⟩

/-- While Busy the step does not look at the command port (R22; log entry 7). -/
theorem step_withQueue (hs : s.seq = .busy i k l) (h : step s = .next t) :
    step (s.withQueue q) = .next (t.withQueue q) := by
  have hexec : exec i s = .next t := step_busy hs ▸ h
  have hc : i.isCommand = true := (StepRuns.inHand hs).isCommand_of_next hexec
  have hs' : (s.withQueue q).seq = .busy i k l := hs
  rw [step_busy hs', exec_withQueue hc hexec]

/-- Settles O51: the sequencer holds the command in hand, and its stages are blind to the command port. -/
theorem busyBlockTakesNoOtherCommand : Obligations.BusyBlockTakesNoOtherCommand :=
  ⟨fun _ _ _ _ _ _ => rowIssued_of_exec_other, fun _ _ _ _ _ _ => step_withQueue⟩

end Sys2Proof.Machine
end
